-- ==== Sys2Proof/Word.lean ====
section
/-! DEFINITION. The value types of the block (spec/00_scope.md R9, R10): every value is unsigned. -/

namespace Sys2Proof

/-- One byte (u8). -/
abbrev Byte := BitVec 8

/-- A 32-bit word (u32): a key word, a scratch word, an epoch, a digest, the counter `T`. -/
abbrev Word := BitVec 32

/-- A 64-bit value (u64): a cookie, the `arg` field of a request, the `data` field of a response. -/
abbrev DWord := BitVec 64

/-- The 128-bit `addr` field of a request: the first 16 bytes of the peer address (R61, R62). -/
abbrev AddrField := BitVec 128

/-- A request packet `REQ` (R60). -/
abbrev Packet := BitVec 224

/-- A response packet `RSP` (R64). -/
abbrev ResponsePacket := BitVec 96

/-- A word `UOP` of the schedule ROM (R72). -/
abbrev UopWord := BitVec 17

/-- Sixteen 32-bit words: `KEY[0..15]` (R21) or the scratch words `X[0..15]` (R25). -/
abbrev Words := Vector Word 16

/-- The 64 bytes `ENT[0..63]` the entropy port offers (R80). -/
abbrev EntBytes := Vector Byte 64

/-- `add32` of R10: addition modulo 2^32. -/
abbrev add32 (a b : Word) : Word := a + b

/-- `sub32` of R10: subtraction modulo 2^32. -/
abbrev sub32 (a b : Word) : Word := a - b

end Sys2Proof
end

