-- ==== Sys2Proof/Config.lean ====
section
/-! DEFINITION. What an implementation of the block fixes: the constants of spec/00_scope.md R7, which
nothing can change, and the open parameters of R8, each a field of `Config` with the spec's default. -/

namespace Sys2Proof

/-- `EXPIRE_TIME_MS` (R7): the validity window in milliseconds. -/
abbrev EXPIRE_TIME_MS : Nat := 4000

/-- `BIN_COUNT` (R7): time bins in the window. -/
abbrev BIN_COUNT : Nat := 16

/-- `BIN_WIDTH_MS = EXPIRE_TIME_MS / BIN_COUNT` (R7, R90). -/
abbrev BIN_WIDTH_MS : Nat := 250

/-- `NDOUBLE` (R7): double-rounds of one hash. -/
abbrev NDOUBLE : Nat := 3

/-- `NOPS` (R7): operations in the schedule of one double-round. -/
abbrev NOPS : Nat := 32

/-- `ADDR_MAX` (R7): the longest accepted peer address, in bytes. -/
abbrev ADDR_MAX : Nat := 16

/-- `ADDR_BASE` (R7): the first word of the address region. -/
abbrev ADDR_BASE : Nat := 4

/-- `BYTE_ORDER` (R8, R43). -/
inductive ByteOrder where
  | le
  | be
deriving DecidableEq, Repr

/-- `ABSORB` (R8): the add variant is not specified, so the parameter has one value. -/
inductive Absorb where
  | overwrite
deriving DecidableEq, Repr

/-- One entry `(t, a, b, r)` of the schedule: target, the two sources, rotate amount (R8, R72). -/
structure MicroOp where
  t : Fin 16
  a : Fin 16
  b : Fin 16
  r : Fin 32
deriving DecidableEq, Repr

/-- A schedule: the 32 operations of one double-round, in order (R115, R117 (c)). -/
abbrev Schedule := Vector MicroOp 32

/-- The column half of the default schedule (R116, `k` = 0..15).
PRESUMED (log entry 8): the spec takes the table from general knowledge, not from its source. Unsafe. -/
def columnRound : Vector MicroOp 16 :=
  #v[⟨4, 0, 12, 7⟩, ⟨8, 4, 0, 9⟩, ⟨12, 8, 4, 13⟩, ⟨0, 12, 8, 18⟩,
     ⟨9, 5, 1, 7⟩, ⟨13, 9, 5, 9⟩, ⟨1, 13, 9, 13⟩, ⟨5, 1, 13, 18⟩,
     ⟨14, 10, 6, 7⟩, ⟨2, 14, 10, 9⟩, ⟨6, 2, 14, 13⟩, ⟨10, 6, 2, 18⟩,
     ⟨3, 15, 11, 7⟩, ⟨7, 3, 15, 9⟩, ⟨11, 7, 3, 13⟩, ⟨15, 11, 7, 18⟩]

/-- The row half of the default schedule (R116, `k` = 16..31). PRESUMED as `columnRound`. -/
def rowRound : Vector MicroOp 16 :=
  #v[⟨1, 0, 3, 7⟩, ⟨2, 1, 0, 9⟩, ⟨3, 2, 1, 13⟩, ⟨0, 3, 2, 18⟩,
     ⟨6, 5, 4, 7⟩, ⟨7, 6, 5, 9⟩, ⟨4, 7, 6, 13⟩, ⟨5, 4, 7, 18⟩,
     ⟨11, 10, 9, 7⟩, ⟨8, 11, 10, 9⟩, ⟨9, 8, 11, 13⟩, ⟨10, 9, 8, 18⟩,
     ⟨12, 15, 14, 7⟩, ⟨13, 12, 15, 9⟩, ⟨14, 13, 12, 13⟩, ⟨15, 14, 13, 18⟩]

/-- The default of the parameter `SCHEDULE` (R116): the column round, then the row round. -/
def defaultSchedule : Schedule := columnRound ++ rowRound

/-- The open parameters of R8. -/
structure Config where
  /-- `BYTE_ORDER`: where byte `j` of a run sits in its word (R43). -/
  byteOrder : ByteOrder
  /-- `SCHEDULE`: the content of the schedule ROM (R116). -/
  schedule : Schedule
  /-- `ABSORB`: what absorbing an address byte does to its lane (R112). -/
  absorb : Absorb
  /-- `NPORT`: the number of command ports (R170). -/
  nport : Nat
deriving DecidableEq, Repr

/-- The defaults of R8. DESIGN CHOICE of the spec (its decisions D6, D7, D8, D20); log entry 8. -/
def Config.default : Config :=
  { byteOrder := .le, schedule := defaultSchedule, absorb := .overwrite, nport := 1 }

/-! ### What binds any value of `SCHEDULE` (R117)

(a), (b), (c), (e) and (g) hold of every `Schedule` by its type and by what executes it (R115). (d) and (f)
are the two checks below. -/

/-- No operation of the schedule reads its own target: R117 (f), the whole is a permutation, by R123.
DEDUCED (log entry 20): R114 says of any other operation that it is no longer invertible. -/
abbrev Invertible (sch : Schedule) : Prop := ∀ u ∈ sch.toList, u.t ≠ u.a ∧ u.t ≠ u.b

/-- Mix `m` of the schedule, `m` in 0..7: the entries `4m` to `4m+3` (R115). -/
def mixOf (sch : Schedule) (m : Nat) : List MicroOp := (sch.toList.drop (4 * m)).take 4

/-- The words that mix `m` reads or writes. -/
def mixWords (sch : Schedule) (m : Nat) : List (Fin 16) :=
  (List.finRange 16).filter fun w => (mixOf sch m).any fun u => u.t == w || u.a == w || u.b == w

/-- How many words the mixes `m` and `n` have in common. -/
def sharedWords (sch : Schedule) (m n : Nat) : Nat :=
  (mixWords sch m).countP fun w => (mixWords sch n).contains w

/-- R117 (d): the 8 mixes are the rows of a 4 by 4 reading of the state in one round and its columns or
diagonals in the other. Each mix is on four words, two mixes of one round share none, and a mix of the one
round shares exactly one with a mix of the other. It does not say which round has the rows or which words
form one, as R117 does not. DEDUCED (log entry 20). -/
def formsMixes (sch : Schedule) : Bool :=
  (List.range 8).all fun m => (List.range 8).all fun n =>
    sharedWords sch m n == if m = n then 4 else if m / 4 = n / 4 then 0 else 1

/-- The domain of the parameters: `NPORT` is at least 1 (R8), and the schedule is as R117 (d) and (f) ask
of any value of it. -/
def Config.legal (c : Config) : Bool :=
  decide (1 ≤ c.nport) && (decide (Invertible c.schedule) && formsMixes c.schedule)

end Sys2Proof
end

