-- ==== Sys2Proof/Syntax.lean ====
section
/-! DEFINITION. The instructions: one constructor for each row of spec/opcode_table.json. A constructor
carries the operands that spec/30_encoding.md R67 gives the command and no field the command ignores (R70). -/

namespace Sys2Proof

/-- The eight commands of R66 and the micro-operation of R72.

`alen` is the length of the peer address in bytes, as the request states it (R61: 0..255); `addr` is the
16-byte address field, whose bytes at or beyond `alen` mean nothing (R62). -/
inductive Instr where
  /-- KINIT (R81): fill the key. -/
  | kinit
  /-- NOW (R93): the current epoch. -/
  | now
  /-- RECON (R95): the epoch that a bin stands for. -/
  | recon (bin : BitVec 4)
  /-- HASH (R119): the digest of an address and an epoch. -/
  | hash (alen : Nat) (addr : AddrField) (epoch : Word)
  /-- PACK (R142): a cookie from a digest and an epoch. -/
  | pack (digest epoch : Word)
  /-- UNPK (R144): the bin of a cookie. -/
  | unpk (cookie : DWord)
  /-- GEN (R145): the cookie of an address, now. -/
  | gen (alen : Nat) (addr : AddrField)
  /-- VRFY (R146): does a cookie belong to an address? -/
  | vrfy (alen : Nat) (addr : AddrField) (cookie : DWord)
  /-- ARX (R114, R72): the micro-operation of the schedule ROM. -/
  | arx (t a b : Fin 16) (r : Fin 32)
deriving DecidableEq, Repr

end Sys2Proof
end

