-- ==== Sys2Proof/WellFormed.lean ====
section
/-! DEFINITION. When an instruction can be encoded. Every operand but the address length is as wide as
its field by its type; the length is a count, and the field that carries it has 8 bits (R61). -/

namespace Sys2Proof

/-- The length fits the field `alen`, u8 (R61). A length of 17..255 is well-formed: the command that
carries it runs and answers InvalidAddressLength (R161). -/
def lengthFits (alen : Nat) : Bool := decide (alen ≤ 255)

/-- The instruction has an encoding. -/
def Instr.wellFormed : Instr → Bool
  | .kinit => true
  | .now => true
  | .recon _ => true
  | .hash alen _ _ => lengthFits alen
  | .pack _ _ => true
  | .unpk _ => true
  | .gen alen _ => lengthFits alen
  | .vrfy alen _ _ => lengthFits alen
  | .arx _ _ _ _ => true

end Sys2Proof
end

