-- ==== Sys2Proof/Decode.lean ====
section
/-! DEFINITION. The request packet and the micro-operation word (spec/30_encoding.md R60 to R72): the
fields, the decoder, total and refusing by name, and the encoder. -/

namespace Sys2Proof

/-! ### The fields of a request packet (R61) -/

/-- `REQ[3:0]`. -/
def reqOp (r : Packet) : BitVec 4 := r.extractLsb' 0 4

/-- `REQ[7:4]`, reserved. -/
def reqRsv0 (r : Packet) : BitVec 4 := r.extractLsb' 4 4

/-- `REQ[15:8]`. -/
def reqAlen (r : Packet) : BitVec 8 := r.extractLsb' 8 8

/-- `REQ[31:16]`, reserved. -/
def reqRsv1 (r : Packet) : BitVec 16 := r.extractLsb' 16 16

/-- `REQ[159:32]`, the words `W1` to `W4`. -/
def reqAddr (r : Packet) : AddrField := r.extractLsb' 32 128

/-- `REQ[223:160]`, the words `W5` and `W6`. -/
def reqArg (r : Packet) : DWord := r.extractLsb' 160 64

/-- `arg[3:0]`: the bin of RECON (R67). -/
def argBin (v : DWord) : BitVec 4 := v.extractLsb' 0 4

/-- `arg[31:0]`: the epoch of HASH, the digest of PACK (R67). -/
def argLow (v : DWord) : Word := v.extractLsb' 0 32

/-- `arg[63:32]`: the epoch of PACK (R67). -/
def argHigh (v : DWord) : Word := v.extractLsb' 32 32

/-! ### The fields of a micro-operation word (R72) -/

/-- `UOP[3:0]`. -/
def uopT (w : UopWord) : Fin 16 := (w.extractLsb' 0 4).toFin

/-- `UOP[7:4]`. -/
def uopA (w : UopWord) : Fin 16 := (w.extractLsb' 4 4).toFin

/-- `UOP[11:8]`. -/
def uopB (w : UopWord) : Fin 16 := (w.extractLsb' 8 4).toFin

/-- `UOP[16:12]`. -/
def uopR (w : UopWord) : Fin 32 := (w.extractLsb' 12 5).toFin

/-! ### Decoding -/

/-- Why a request packet is no command (R162). The block answers all three alike, with IllegalCommand. -/
inductive DecodeError where
  /-- `rsv0` is not 0 (R69). -/
  | reservedField0
  /-- `rsv1` is not 0 (R69). -/
  | reservedField1
  /-- `op` is 8..15 (R68). -/
  | reservedOpcode (op : BitVec 4)
deriving DecidableEq, Repr

/-- What a decoder is given: a request packet on a command port, or a word of the schedule ROM. -/
inductive Image where
  | request (r : Packet)
  | uop (w : UopWord)
deriving DecidableEq, Repr

/-- Decode a request packet (R66 to R71). The fields a command ignores are dropped (R70). -/
def decodeRequest (r : Packet) : Except DecodeError Instr :=
  if reqRsv0 r ≠ 0#4 then .error .reservedField0
  else if reqRsv1 r ≠ 0#16 then .error .reservedField1
  else match (reqOp r).toNat with
    | 0 => .ok .kinit
    | 1 => .ok .now
    | 2 => .ok (.recon (argBin (reqArg r)))
    | 3 => .ok (.hash (reqAlen r).toNat (reqAddr r) (argLow (reqArg r)))
    | 4 => .ok (.pack (argLow (reqArg r)) (argHigh (reqArg r)))
    | 5 => .ok (.unpk (reqArg r))
    | 6 => .ok (.gen (reqAlen r).toNat (reqAddr r))
    | 7 => .ok (.vrfy (reqAlen r).toNat (reqAddr r) (reqArg r))
    | _ => .error (.reservedOpcode (reqOp r))

/-- Decode a micro-operation word: every 17-bit value is one (R72). -/
def decodeUop (w : UopWord) : Instr := .arx (uopT w) (uopA w) (uopB w) (uopR w)

/-- The decoder, total on every request packet and every micro-operation word. -/
def decode : Image → Except DecodeError Instr
  | .request r => decodeRequest r
  | .uop w => .ok (decodeUop w)

/-! ### Encoding -/

/-- A request packet from its fields, the reserved ones 0 (R61). -/
def requestPacket (op : BitVec 4) (alen : BitVec 8) (addr : AddrField) (arg : DWord) : Packet :=
  (arg.setWidth 224 <<< 160) ||| (addr.setWidth 224 <<< 32) ||| (alen.setWidth 224 <<< 8) |||
    op.setWidth 224

/-- The field `alen` of a length: the length itself, or 255 for one that does not fit (R62). -/
def alenField (alen : Nat) : BitVec 8 := BitVec.ofNat 8 (min alen 255)

/-- A micro-operation word from its fields: `(r << 12) | (b << 8) | (a << 4) | t` (R72). -/
def uopWord (t a b : Fin 16) (r : Fin 32) : UopWord :=
  (BitVec.ofNat 17 r.val <<< 12) ||| (BitVec.ofNat 17 b.val <<< 8) |||
    (BitVec.ofNat 17 a.val <<< 4) ||| BitVec.ofNat 17 t.val

/-- The `arg` field of PACK (R67, R73): `(epoch << 32) | digest`. -/
def packArg (digest epoch : Word) : DWord := (epoch.setWidth 64 <<< 32) ||| digest.setWidth 64

/-- The encoder: the packet that R73 says a command assembles to (fields it does not use are 0), or the
schedule ROM's word for the micro-operation. -/
def encode : Instr → Image
  | .kinit => .request (requestPacket 0 0 0 0)
  | .now => .request (requestPacket 1 0 0 0)
  | .recon bin => .request (requestPacket 2 0 0 (bin.setWidth 64))
  | .hash alen addr epoch => .request (requestPacket 3 (alenField alen) addr (epoch.setWidth 64))
  | .pack digest epoch => .request (requestPacket 4 0 0 (packArg digest epoch))
  | .unpk cookie => .request (requestPacket 5 0 0 cookie)
  | .gen alen addr => .request (requestPacket 6 (alenField alen) addr 0)
  | .vrfy alen addr cookie => .request (requestPacket 7 (alenField alen) addr cookie)
  | .arx t a b r => .uop (uopWord t a b r)

/-! ### Words as spec/opcode_table.json numbers them -/

/-- What the number `w`, given with `nbits` bits, is an image of: with fewer than 32 bits a word of the
schedule ROM (17 bits, so none if it does not fit), else a request packet whose bits above `nbits` are 0.
DESIGN CHOICE (log entry 14): the table's two formats are told apart by their width. Safe. -/
def tableImage (nbits w : Nat) : Option Image :=
  if nbits < 32 then
    if w < 2 ^ 17 then some (.uop (BitVec.ofNat 17 w)) else none
  else some (.request (BitVec.ofNat 224 (w % 2 ^ nbits)))

/-- The instruction the decoder reads from an instruction whose bits are `w`. -/
def decodeTableWord (nbits w : Nat) : Option Instr :=
  match tableImage nbits w with
  | none => none
  | some im => (decode im).toOption

end Sys2Proof
end

