-- ==== Sys2Proof/Machine/State.lean ====
section
/-! DEFINITION. The state of the block as plain data (spec/10_state.md), what the environment does to it,
and why a step can stop. The block has no memory, no program counter, no flag and no mode
(R26, R27, R28, R40, R167), so there is no field for one. -/

namespace Sys2Proof.Machine

/-- The status of a response (spec/30_encoding.md R65). Code 3 is never produced and has no constructor. -/
inductive Status where
  /-- 0: the command completed. -/
  | ok
  /-- 1: `alen > 16` on HASH, GEN or VRFY (R161). -/
  | invalidAddressLength
  /-- 2: reserved opcode or non-zero reserved field (R162). -/
  | illegalCommand
deriving DecidableEq, Repr

/-- A response (R64); `responseWord` lays it out as the 96-bit packet. -/
structure Response where
  status : Status
  data : DWord
deriving DecidableEq, Repr

/-- What is private to one command port (spec/60_exceptions.md R170). -/
structure Port where
  /-- The request in flight: accepted, its step not yet taken, stalled or not (R75, R83). -/
  req : Option Packet
  /-- The response the port presents (`rsp_valid` and `rsp`, R75). DESIGN CHOICE (log entry 11). -/
  rsp : Option Response
  /-- The port's scratch words `X[0..15]` (R25), which the opcode table's ARX row acts on. HASH, GEN and
  VRFY compute on a local copy, as R25 asks, and leave these alone. DESIGN CHOICE (log entries 4, 5, 6). -/
  x : Words
deriving DecidableEq, Repr

/-- Sixteen zero words. -/
def zeroWords : Words := Vector.replicate 16 0#32

/-- A port right after reset: nothing in flight, nothing presented (R32).
DESIGN CHOICE (log entry 5): the scratch words, for which R32 gives no value, are 0. Unsafe. -/
def Port.idle : Port := { req := none, rsp := none, x := zeroWords }

/-- One move of an agent (R12) or of the environment (R29, R74). The agenda of the state lists them. -/
inductive Move where
  /-- The tick agent steps: one millisecond has elapsed (R91). -/
  | tick
  /-- The reset agent steps (R180). -/
  | reset
  /-- From here on the entropy port offers these bytes, or is not valid (R74 `.ent`, R75). -/
  | entropy (offer : Option EntBytes)
  /-- The host presents a request packet on port `p` (R75). -/
  | request (p : Nat) (r : Packet)
  /-- Port `p` takes its atomic step (R12 (a), R49). -/
  | serve (p : Nat)
  /-- The Mixer of port `p` is given one micro-operation word by itself. No agent of the hardware makes
  this move: it is how `step` runs the table's ARX row. DESIGN CHOICE (log entry 4). Safe. -/
  | microOp (p : Nat) (w : UopWord)
deriving DecidableEq, Repr

/-- The state of the machine. -/
structure State where
  /-- The open parameters (R8), which no step writes (log entry 8). -/
  config : Config
  /-- `KEY[0..15]` with `KV` as the tag: `none` is `KV = 0`, under which R21 wants no value for `KEY`
  (log entry 7). -/
  key : Option Words
  /-- `T`, the millisecond counter (R24). -/
  t : Word
  /-- The command ports, `NPORT` of them (R170). -/
  ports : List Port
  /-- The MODEL's own: the port whose command is executing (log entry 19). -/
  cur : Nat
  /-- The entropy port: `none` is `ent_valid = 0`, else the bytes `ENT[0..63]` (R75, R80). An input. -/
  ent : Option EntBytes
  /-- `ent_take`: 1 after a step that performed the key fill (R75). An output. -/
  entTake : Bool
  /-- The MODEL's own: who moves next, in order (log entries 1, 2). An input. -/
  agenda : List Move
deriving DecidableEq, Repr

/-- `KV` (R20, R22): has the key fill happened? -/
abbrev State.kv (s : State) : Bool := s.key.isSome

/-- Why the machine stops with a fault. The block itself has no fault (R13, R164). -/
inductive Fault where
  /-- Raised by `presentRequest`, `servePort` and `runMicroOp` when the agenda names a port the block does
  not have (`p >= NPORT`, R170): no such pins exist. Safe: nothing is claimed of what cannot happen. -/
  | noSuchPort
deriving DecidableEq, Repr

/-- Why the machine refuses to run an instruction. -/
inductive Refusal where
  /-- Raised by `exec` alone, for an instruction without a meaning; no arm of it does. Safe. -/
  | notModelled (mnemonic : String)
deriving DecidableEq, Repr

/-- A machine with these parameters right after reset (R32): no key, `T = 0`, every port idle.
DESIGN CHOICE (log entries 2, 10, 19): the entropy port offers nothing, the agenda is empty, the current
port is 0. -/
def State.resetWith (c : Config) : State :=
  { config := c
    key := none
    t := 0#32
    ports := List.replicate c.nport Port.idle
    cur := 0
    ent := none
    entTake := false
    agenda := [] }

/-- The machine right after reset (R32), under the default parameters (R8). -/
def State.reset : State := State.resetWith Config.default

end Sys2Proof.Machine
end

