-- ==== Sys2Proof/Machine/Flags.lean ====
section
/-! DEFINITION. The block has no flags (spec/10_state.md R27): what a command reports is the status field
of its response (spec/30_encoding.md R64, R65). -/

namespace Sys2Proof.Machine

/-- The status code (R65). -/
def statusCode : Status → BitVec 2
  | .ok => 0
  | .invalidAddressLength => 1
  | .illegalCommand => 2

/-- The response packet `RSP` (R64): status in bits 1:0, zeros in 31:2, data in 95:32. -/
def responseWord (r : Response) : ResponsePacket := r.data ++ 0#30 ++ statusCode r.status

end Sys2Proof.Machine
end

