-- ==== Sys2Proof/Machine/Operands.lean ====
section
/-! DEFINITION. Byte lanes, bytes of the address field and the word operations (spec/00_scope.md R10,
spec/20_memory.md R43 to R45, spec/30_encoding.md R62). -/

namespace Sys2Proof.Machine

/-- `lane_lo(j)` (R43): the lowest bit of the lane that byte `j` of a run of words falls in. -/
def laneLo (o : ByteOrder) (j : Nat) : Nat :=
  match o with
  | .le => 8 * (j % 4)
  | .be => 24 - 8 * (j % 4)

/-- `w[lo+7 : lo]`. -/
def laneOf (w : Word) (lo : Nat) : Byte := w.extractLsb' lo 8

/-- `w[lo+7 : lo] <- b`: the other lanes of `w` keep their bits (R112). -/
def setLane (w : Word) (lo : Nat) (b : Byte) : Word :=
  (w &&& ~~~(0xFF#32 <<< lo)) ||| (b.setWidth 32 <<< lo)

/-- `A[j] = addr[8j+7 : 8j]` (R62). -/
def addrByte (addr : AddrField) (j : Nat) : Byte := addr.extractLsb' (8 * j) 8

/-- The word of the mixing state that address byte `j` goes to, `4 + (j div 4)` (R45). -/
def addrWord (j : Nat) : Fin 16 := Fin.ofNat 16 (ADDR_BASE + j / 4)

/-- The word made of four consecutive bytes of the key, the first in the most significant lane. -/
def bytesToWord (b3 b2 b1 b0 : Byte) : Word :=
  (b3.setWidth 32 <<< 24) ||| (b2.setWidth 32 <<< 16) ||| (b1.setWidth 32 <<< 8) ||| b0.setWidth 32

/-- The key word of four consecutive key bytes (R44): `{e3, e2, e1, e0}` under `LE`, `{e0, e1, e2, e3}`
under `BE`. -/
def keyWord (o : ByteOrder) (e0 e1 e2 e3 : Byte) : Word :=
  match o with
  | .le => bytesToWord e3 e2 e1 e0
  | .be => bytesToWord e0 e1 e2 e3

/-- Key bytes to key words (R44): word `i` is made of the bytes `4i` to `4i+3`. -/
def keyWords (o : ByteOrder) (e : EntBytes) : Words :=
  Vector.ofFn fun i : Fin 16 =>
    keyWord o e[4 * i.val] e[4 * i.val + 1] e[4 * i.val + 2] e[4 * i.val + 3]

/-- `rotl32(v, r)` (R10). -/
def rotl32 (v : Word) (r : Nat) : Word :=
  if r = 0 then v else (v <<< r) ||| (v >>> (32 - r))

end Sys2Proof.Machine
end

