-- ==== Sys2Proof/Machine/Ops.lean ====
section
/-! DEFINITION. The operations that the meanings share: answering on a port, raising an error (what takes
the place of an exception, spec/60_exceptions.md R164; there is no return from one, R165), the stall, the
key fill (spec/40_keysource.md R80), the tick and the reset. -/

namespace Sys2Proof.Machine

/-- Change port `p` and nothing else. -/
def modifyPort (p : Nat) (f : Port → Port) (s : State) : State :=
  { s with ports := s.ports.modify p f }

/-- The port of an answered command: its request is finished, its response presented (R64, R75). -/
def answered (a : Response) (q : Port) : Port := { q with req := none, rsp := some a }

/-- `respond(status, data)` on the port whose command is executing (R11, R64). -/
def respond (st : Status) (d : DWord) (s : State) : State :=
  modifyPort s.cur (answered { status := st, data := d }) s

/-- The command completes with status OK and this result. -/
def complete (d : DWord) (s : State) : Host.Outcome State Fault Refusal := .next (respond .ok d s)

/-- `raise` (R11, R164): the error is reported in the response, with data 0, and nothing else happens. -/
def raiseError (st : Status) (s : State) : Host.Outcome State Fault Refusal :=
  .next (respond st 0 s)

/-- The stall (R83): the command has no step. Nothing changes and the request stays in flight
(log entry 9). -/
def stall (s : State) : Host.Outcome State Fault Refusal := .next s

/-- `KeyFill()` (R80): the key and the state after it, or `none` where the command stalls. A key that is
there stays (R22); else the 64 bytes the entropy port offers become the key and `ent_take` is pulsed. -/
def keyFill (s : State) : Option (Words × State) :=
  match s.key, s.ent with
  | some k, _ => some (k, s)
  | none, none => none
  | none, some e =>
    some (keyWords s.config.byteOrder e,
      { s with key := some (keyWords s.config.byteOrder e), entTake := true })

/-- The frame of HASH, GEN and VRFY (R163): the length check, then the key fill, which may stall, then the
result, computed from the key and the state. -/
def keyedCommand (alen : Nat) (result : Words → State → DWord) (s : State) :
    Host.Outcome State Fault Refusal :=
  if ADDR_MAX < alen then raiseError .invalidAddressLength s
  else match keyFill s with
    | none => stall s
    | some (k, s') => complete (result k s') s'

/-- The step of the tick agent (R91). -/
def tickCounter (s : State) : State := { s with t := add32 s.t 1#32 }

/-- The step of the reset agent (R180, R32): the reset values, requests in flight dropped without a
response. The parameters and the inputs (entropy port, agenda) are not state and stay (R29; log
entry 16). -/
def applyReset (s : State) : State :=
  { State.resetWith s.config with ent := s.ent, agenda := s.agenda }

end Sys2Proof.Machine
end

