-- ==== Sys2Proof/Machine/EpochClock.lean ====
section
/-! DEFINITION. EpochClock: `now`, `reconstruct`, NOW and RECON (spec/41_epochclock.md). -/

namespace Sys2Proof.Machine

/-- `now()` as a function of `T` (R92): unsigned floor division by 250. -/
def epochNow (t : Word) : Word := t / BitVec.ofNat 32 BIN_WIDTH_MS

/-- The bin of an epoch: its low 4 bits (R90). -/
def binOf (e : Word) : BitVec 4 := e.extractLsb' 0 4

/-- `reconstruct(bin)` as a function of `T` (R94). -/
def reconstruct (bin : BitVec 4) (t : Word) : Word :=
  let e := epochNow t
  let candidate := (e &&& 0xFFFFFFF0#32) ||| bin.setWidth 32
  if binOf e < bin then sub32 candidate 16#32 else candidate

/-- NOW (R93). -/
def execNow (s : State) : Host.Outcome State Fault Refusal :=
  complete ((epochNow s.t).setWidth 64) s

/-- RECON (R95). -/
def execRecon (bin : BitVec 4) (s : State) : Host.Outcome State Fault Refusal :=
  complete ((reconstruct bin s.t).setWidth 64) s

end Sys2Proof.Machine
end

