-- ==== Sys2Proof/Machine/Mixer.lean ====
section
/-! DEFINITION. Mixer: the ARX micro-operation, the permutation, the hash, HASH and ARX
(spec/42_mixer.md). The function has the five steps of R110 and none of those R120 warns of. -/

namespace Sys2Proof.Machine

/-- Step 2 (R112) under `OVERWRITE`: the first `n` address bytes each replace one byte lane of the words
4..7, in order; lanes that no byte covers keep their key byte. -/
def overlayBytes (o : ByteOrder) (addr : AddrField) : Nat → Words → Words
  | 0, x => x
  | n + 1, x =>
    let y := overlayBytes o addr n x
    y.set (addrWord n) (setLane y[addrWord n] (laneLo o n) (addrByte addr n))

/-- Step 2 (R112), by the parameter `ABSORB` (R8). -/
def absorbAddress (c : Config) (addr : AddrField) (alen : Nat) (x : Words) : Words :=
  match c.absorb with
  | .overwrite => overlayBytes c.byteOrder addr alen x

/-- Step 3 (R113): the epoch is added into word 6 and, independently, into word 10. -/
def addEpoch (epoch : Word) (x : Words) : Words :=
  let y := x.set 6 (add32 x[6] epoch)
  y.set 10 (add32 y[10] epoch)

/-- Steps 1 to 3 (R111 to R113): the state that the permutation starts from. -/
def mixInit (c : Config) (key : Words) (addr : AddrField) (alen : Nat) (epoch : Word) : Words :=
  addEpoch epoch (absorbAddress c addr alen key)

/-- The micro-operation (R114): both sources and the old target are read before the target is written. -/
def arxWord (u : MicroOp) (x : Words) : Words :=
  x.set u.t (x[u.t] ^^^ rotl32 (add32 x[u.a] x[u.b]) u.r.val)

/-- One double-round (R115): the schedule's operations, one after another, in place. -/
def doubleRound (sch : Schedule) (x : Words) : Words :=
  sch.toList.foldl (fun y u => arxWord u y) x

/-- Step 4 (R115): three double-rounds. -/
def permute (sch : Schedule) (x : Words) : Words := (doubleRound sch)^[NDOUBLE] x

/-- Step 5 (R118). -/
def foldWords (x : Words) : Word := x[0] ^^^ x[5] ^^^ x[10] ^^^ x[15]

/-- `hash(A, alen, epoch)` under a key (R110). -/
def mixerHash (c : Config) (key : Words) (addr : AddrField) (alen : Nat) (epoch : Word) : Word :=
  foldWords (permute c.schedule (mixInit c key addr alen epoch))

/-- HASH (R119). -/
def execHash (alen : Nat) (addr : AddrField) (epoch : Word) (s : State) :
    Host.Outcome State Fault Refusal :=
  keyedCommand alen (fun k s' => (mixerHash s'.config k addr alen epoch).setWidth 64) s

/-- ARX (R114), on the scratch words of the current port (log entry 4). It answers nothing: it is no
command (R64, R72). -/
def execArx (t a b : Fin 16) (r : Fin 32) (s : State) : Host.Outcome State Fault Refusal :=
  .next (modifyPort s.cur (fun q => { q with x := arxWord ⟨t, a, b, r⟩ q.x }) s)

end Sys2Proof.Machine
end

