-- ==== Sys2Proof/Machine/CookieCodec.lean ====
section
/-! DEFINITION. CookieCodec: `pack`, `unpack_bin`, PACK, UNPK, GEN and VRFY (spec/43_cookiecodec.md). -/

namespace Sys2Proof.Machine

/-- `pack(digest, epoch)` (R141): the digest is zero-extended, so bits 63:36 are 0 (R140). -/
def packCookie (digest epoch : Word) : DWord :=
  (digest.setWidth 64 <<< 4) ||| (binOf epoch).setWidth 64

/-- `unpack_bin(cookie)` (R143). -/
def unpackBin (cookie : DWord) : BitVec 4 := cookie.extractLsb' 0 4

/-- The cookie of an address at an epoch (R145, last three lines). -/
def cookieFor (c : Config) (key : Words) (addr : AddrField) (alen : Nat) (epoch : Word) : DWord :=
  packCookie (mixerHash c key addr alen epoch) epoch

/-- The verdict of R146: the epoch is reconstructed from the cookie's bin, the digest recomputed, and all
64 bits compared. -/
def verdict (c : Config) (key : Words) (addr : AddrField) (alen : Nat) (cookie : DWord) (t : Word) :
    Bool :=
  cookieFor c key addr alen (reconstruct (unpackBin cookie) t) == cookie

/-- PACK (R142). -/
def execPack (digest epoch : Word) (s : State) : Host.Outcome State Fault Refusal :=
  complete (packCookie digest epoch) s

/-- UNPK (R144). -/
def execUnpk (cookie : DWord) (s : State) : Host.Outcome State Fault Refusal :=
  complete ((unpackBin cookie).setWidth 64) s

/-- GEN (R145): `T` is read once, for the hash and for the bin. -/
def execGen (alen : Nat) (addr : AddrField) (s : State) : Host.Outcome State Fault Refusal :=
  keyedCommand alen (fun k s' => cookieFor s'.config k addr alen (epochNow s'.t)) s

/-- VRFY (R146): the answer is one bit and nothing else (R147); no record of the cookie is kept (R152). -/
def execVrfy (alen : Nat) (addr : AddrField) (cookie : DWord) (s : State) :
    Host.Outcome State Fault Refusal :=
  keyedCommand alen
    (fun k s' => (BitVec.ofBool (verdict s'.config k addr alen cookie s'.t)).setWidth 64) s

end Sys2Proof.Machine
end

