-- ==== Sys2Proof/Machine/KeySource.lean ====
section
/-! DEFINITION. KeySource: KINIT (spec/40_keysource.md). -/

namespace Sys2Proof.Machine

/-- KINIT (R81): the key fill, which may stall, then `respond(OK, 0)`. -/
def execKinit (s : State) : Host.Outcome State Fault Refusal :=
  match keyFill s with
  | none => stall s
  | some (_, s') => complete 0 s'

end Sys2Proof.Machine
end

