-- ==== Sys2Proof/Machine/Dispatch.lean ====
section
/-! DEFINITION. The meaning of every instruction, one arm each. -/

namespace Sys2Proof.Machine

def exec (i : Instr) (s : State) : Host.Outcome State Fault Refusal :=
  match i with
  | .kinit => Sys2Proof.Machine.execKinit s
  | .now => Sys2Proof.Machine.execNow s
  | .recon bin => Sys2Proof.Machine.execRecon bin s
  | .hash alen addr epoch => Sys2Proof.Machine.execHash alen addr epoch s
  | .pack digest epoch => Sys2Proof.Machine.execPack digest epoch s
  | .unpk cookie => Sys2Proof.Machine.execUnpk cookie s
  | .gen alen addr => Sys2Proof.Machine.execGen alen addr s
  | .vrfy alen addr cookie => Sys2Proof.Machine.execVrfy alen addr cookie s
  | .arx t a b r => Sys2Proof.Machine.execArx t a b r s

end Sys2Proof.Machine
end

