-- ==== Sys2Proof/Machine/Agents.lean ====
section
/-! DEFINITION. What each agent (spec/00_scope.md R12) and the environment does when it is its turn, and
how an instruction is fetched: a request packet from the port it is in flight on, a micro-operation word
from the move that presents it. -/

namespace Sys2Proof.Machine

/-- Execute a request packet on the current port (R163): check 1 is the encoding, the other checks are the
command's own. -/
def executePacket (r : Packet) (s : State) : Host.Outcome State Fault Refusal :=
  match decodeRequest r with
  | .ok i => exec i s
  | .error _ => raiseError .illegalCommand s

/-- The atomic step of port `p` (R12 (a), R49): it executes the request in flight on it. A port with none
has no step, and nothing happens (log entry 12). -/
def servePort (p : Nat) (s : State) : Host.Outcome State Fault Refusal :=
  match s.ports[p]? with
  | none => .fault .noSuchPort
  | some q =>
    match q.req with
    | none => .next s
    | some r => executePacket r { s with cur := p }

/-- The host presents a request on port `p` (R75): it is accepted if none is in flight (`req_ready`), and
the port then presents no response until it has one to this request; else it is not taken (log
entries 11, 12). -/
def presentRequest (p : Nat) (r : Packet) (s : State) : Host.Outcome State Fault Refusal :=
  match s.ports[p]? with
  | none => .fault .noSuchPort
  | some q =>
    match q.req with
    | none => .next (modifyPort p (fun q => { q with req := some r, rsp := none }) s)
    | some _ => .next s

/-- The Mixer of port `p` executes one micro-operation word (R72, R114; log entry 4). -/
def runMicroOp (p : Nat) (w : UopWord) (s : State) : Host.Outcome State Fault Refusal :=
  match s.ports[p]? with
  | none => .fault .noSuchPort
  | some _ => exec (decodeUop w) { s with cur := p }

/-- One move. -/
def runMove (m : Move) (s : State) : Host.Outcome State Fault Refusal :=
  match m with
  | .tick => .next (tickCounter s)
  | .reset => .next (applyReset s)
  | .entropy offer => .next { s with ent := offer }
  | .request p r => presentRequest p r s
  | .serve p => servePort p s
  | .microOp p w => runMicroOp p w s

/-- The state in which a move is made: the move is off the agenda, and the pulse `ent_take` of an earlier
step is over (R75). -/
def beginMove (rest : List Move) (s : State) : State := { s with agenda := rest, entTake := false }

/-- Who moves next: the head of the agenda. DESIGN CHOICE (log entry 2): with an empty agenda it is the tick
agent, the one agent that is enabled in every state (R91). -/
def nextMove (s : State) : Move × List Move :=
  match s.agenda with
  | [] => (.tick, [])
  | m :: rest => (m, rest)

/-- Place an image where the very next step fetches it: a request packet in flight on port 0, whose turn it
is; a micro-operation word as the next move. DESIGN CHOICE (log entry 3): unlike a request that the host
presents (`presentRequest`, R75), a placed one takes the place of a request already in flight on port 0; as
there, the port presents no response until it has one to it. -/
def placeImage (im : Image) (s : State) : State :=
  match im with
  | .request r =>
    modifyPort 0 (fun q => { q with req := some r, rsp := none }) { s with agenda := .serve 0 :: s.agenda }
  | .uop w => { s with agenda := .microOp 0 w :: s.agenda }

/-- Place the instruction whose bits are `w`, numbered as spec/opcode_table.json numbers them. -/
def placeTableWord (nbits w : Nat) (s : State) : State :=
  match tableImage nbits w with
  | none => s
  | some im => placeImage im s

end Sys2Proof.Machine
end

