-- ==== Sys2Proof/Machine/Step.lean ====
section
/-! DEFINITION. One step of the machine: the agent whose turn it is moves (spec/00_scope.md R12). -/

namespace Sys2Proof.Machine

/-- One atomic step (R49, R50). -/
def step (s : State) : Host.Outcome State Fault Refusal :=
  runMove (nextMove s).1 (beginMove (nextMove s).2 s)

/-- `s` with the instruction whose bits are `w` stored where the next step fetches it. -/
def State.withFetchWord (s : State) (nbits w : Nat) : State := placeTableWord nbits w s

end Sys2Proof.Machine
end

