-- ==== Sys2Proof/Safety.lean ====
section
/-! DEFINITION. The terms that claims about the machine use: when a key-using command can take its step, the
state it leaves, what a state of the machine always satisfies, and what a stretch of moves contains. -/

namespace Sys2Proof.Machine

/-- `k` is the key that a key-using command works with in `s`: the key that is there, or the one its own
key fill makes of the bytes the entropy port offers (spec/40_keysource.md R80). No such `k` exists exactly
where the command stalls (R83). -/
abbrev UsesKey (s : State) (k : Words) : Prop :=
  s.key = some k ∨
    s.key = none ∧ s.ent.isSome ∧ s.ent.map (keyWords s.config.byteOrder) = some k

/-- `s` after its current port has answered `a` to the request in flight, and nothing else. -/
def withAnswer (a : Response) (s : State) : State :=
  { s with ports := s.ports.modify s.cur (fun q => { q with req := none, rsp := some a }) }

/-- `s` after a key-using command that worked with the key `k` has answered OK and `d`: the key is there,
and if it was not before then the entropy port's bytes were taken. The port's scratch words are as before
(log entry 6). -/
def afterKeyed (k : Words) (d : DWord) (s : State) : State :=
  withAnswer { status := .ok, data := d }
    { s with key := some k, entTake := s.entTake || s.key.isNone }

/-- The response that port `p` presents. -/
def presented (s : State) (p : Nat) : Option Response := (s.ports[p]?).bind Port.rsp

/-- The instruction is one of the eight commands (R66), not the micro-operation. -/
def isCommand : Instr → Bool
  | .arx _ _ _ _ => false
  | _ => true

/-- The command calls `KeyFill()` once its checks have passed (R82, R163). -/
def usesKeyFill : Instr → Bool
  | .kinit => true
  | .hash _ _ _ => true
  | .gen _ _ => true
  | .vrfy _ _ _ => true
  | _ => false

/-- The length check of R163 passes: the command is not HASH, GEN or VRFY, or its address is short enough. -/
def lengthOk : Instr → Bool
  | .hash alen _ _ => decide (alen ≤ ADDR_MAX)
  | .gen alen _ => decide (alen ≤ ADDR_MAX)
  | .vrfy alen _ _ => decide (alen ≤ ADDR_MAX)
  | _ => true

/-- The opcode of a command (R66). -/
def opcodeOf : Instr → Option (BitVec 4)
  | .kinit => some 0
  | .now => some 1
  | .recon _ => some 2
  | .hash _ _ _ => some 3
  | .pack _ _ => some 4
  | .unpk _ => some 5
  | .gen _ _ => some 6
  | .vrfy _ _ _ => some 7
  | .arx _ _ _ _ => none

/-- What a port may hold: no response is presented while a request is in flight (R75), and an error is
answered with data 0 (R64). -/
abbrev PortOk (q : Port) : Prop :=
  (q.req.isSome → q.rsp = none) ∧ ∀ a ∈ q.rsp, a.status ≠ .ok → a.data = 0#64

/-- What every state of the machine satisfies: the parameters are legal (R8, R117; so there is at least one
port), there are `NPORT` ports (R170), and each is as `PortOk` says. -/
abbrev StateOk (s : State) : Prop :=
  s.ports.length = s.config.nport ∧ s.config.legal = true ∧ ∀ q ∈ s.ports, PortOk q

/-- The move is the reset agent's. -/
def isReset : Move → Bool
  | .reset => true
  | _ => false

/-- The move is the tick agent's. -/
def isTick : Move → Bool
  | .tick => true
  | _ => false

/-- How many milliseconds elapse in a stretch of moves. -/
def ticksIn (ms : List Move) : Nat := ms.countP isTick

/-- A stretch of moves without a reset. -/
abbrev NoReset (ms : List Move) : Prop := ∀ m ∈ ms, isReset m = false

/-- Every move of the agenda names a port the block has. -/
def movePort : Move → Option Nat
  | .request p _ => some p
  | .serve p => some p
  | .microOp p _ => some p
  | _ => none

/-- `n` steps of the machine, to the first that gives no next state. -/
abbrev runSteps (n : Nat) (s : State) : Host.Outcome State Fault Refusal :=
  Host.Core.run Sys2Proof.core n s

/-- The first check of R163 fails the request: a reserved field is not 0, or the opcode is reserved. -/
abbrev IllegalPacket (r : Packet) : Prop :=
  reqRsv0 r ≠ 0#4 ∨ reqRsv1 r ≠ 0#16 ∨ 8 ≤ (reqOp r).toNat

/-- The request is a HASH, GEN or VRFY by its opcode (R163, check 2). -/
abbrev TakesAddress (r : Packet) : Prop := reqOp r = 3#4 ∨ reqOp r = 6#4 ∨ reqOp r = 7#4

/-- `s` with the scratch words of every port cleared. -/
def eraseScratch (s : State) : State :=
  { s with ports := s.ports.map (fun q => { q with x := zeroWords }) }

/-- Apply `f` to the state of an outcome that has one. -/
def mapNext (f : State → State) : Host.Outcome State Fault Refusal → Host.Outcome State Fault Refusal
  | .next s => .next (f s)
  | .fault r => .fault r
  | .refused r => .refused r

/-- The schedule as instructions: one ARX for each entry, in order. -/
def scheduleInstrs (sch : Schedule) : List Instr := sch.toList.map (fun u => .arx u.t u.a u.b u.r)

/-- Instructions executed one after another on the current port, to the first that gives no next state. -/
def execAll : List Instr → State → Host.Outcome State Fault Refusal
  | [], s => .next s
  | i :: is, s =>
    match exec i s with
    | .next s' => execAll is s'
    | .fault r => .fault r
    | .refused r => .refused r

/-- Two request packets of the same command that differ only in what R70 says is ignored: same `op`, both
reserved fields equal, and the fields R67 lists for that command equal. -/
def SameUsedFields (r r' : Packet) : Prop :=
  reqOp r = reqOp r' ∧ reqRsv0 r = reqRsv0 r' ∧ reqRsv1 r = reqRsv1 r' ∧
  (reqOp r = 2#4 → argBin (reqArg r) = argBin (reqArg r')) ∧
  (reqOp r = 3#4 → argLow (reqArg r) = argLow (reqArg r')) ∧
  (reqOp r = 4#4 ∨ reqOp r = 5#4 ∨ reqOp r = 7#4 → reqArg r = reqArg r') ∧
  (reqOp r = 3#4 ∨ reqOp r = 6#4 ∨ reqOp r = 7#4 →
    reqAlen r = reqAlen r' ∧
    ∀ j < (reqAlen r).toNat, j < 16 → addrByte (reqAddr r) j = addrByte (reqAddr r') j)

end Sys2Proof.Machine
end

