-- ==== Sys2Proof/Certificates/Slice0/Obligations.lean ====
section
/-! DEFINITION. The statements for the provers. Each docstring names the rules of spec/ it rests on. -/

open Sys2Proof Sys2Proof.Machine

/-! ### Encoding (30_encoding.md) -/

/-- Decoding an encoded well-formed instruction gives it back, with every operand at every value
(R61, R66, R67, R72). -/
def Obligations.DecodeOfEncodeIsIdentity : Prop :=
  ∀ i : Instr, i.wellFormed = true → decode (encode i) = .ok i

/-- A packet is a command exactly where the reserved fields are 0 and `op` is at most 7, and it is command
`n` exactly where `W0 & 0xFFFF00FF = n` (R71). -/
def Obligations.CommandsAreMatchAndMask : Prop :=
  ∀ r : Packet,
    ((∃ i, decodeRequest r = .ok i) ↔ ¬ IllegalPacket r) ∧
    ∀ n : BitVec 4, n.toNat < 8 →
      ((∃ i, decodeRequest r = .ok i ∧ opcodeOf i = some n) ↔
        r.extractLsb' 0 32 &&& 0xFFFF00FF#32 = n.setWidth 32)

/-- The worked words of R71 and R72 decode to what the spec says they are. -/
def Obligations.WorkedWordsDecode : Prop :=
  decodeRequest 0x0100007F00000406#224 = .ok (.gen 4 0x0100007F#128) ∧
  decodeRequest 0x00000002EF746EE40000000000000000000000000100007F00000407#224 =
    .ok (.vrfy 4 0x0100007F#128 0x00000002EF746EE4#64) ∧
  decodeRequest 0x0000001F123456780000000000000000000000000000000000000004#224 =
    .ok (.pack 0x12345678#32 0x1F#32) ∧
  decodeRequest 0x00001106#224 = .ok (.gen 17 0#128) ∧
  decodeUop 0x07C04#17 = .arx 4 0 12 7

/-- Packets that differ only in fields their command ignores are executed alike: same result, same status,
same state (R70). -/
def Obligations.IgnoredFieldsHaveNoEffect : Prop :=
  ∀ (r r' : Packet) (s : State), SameUsedFields r r' → executePacket r s = executePacket r' s

/-! ### Errors and the order of checks (60_exceptions.md) -/

/-- A reserved opcode or a non-zero reserved field answers IllegalCommand and data 0, and nothing else
changes (R68, R69). -/
def Obligations.ReservedEncodingsAnswerIllegalCommand : Prop :=
  ∀ (r : Packet) (s : State), IllegalPacket r →
    executePacket r s = .next (withAnswer { status := .illegalCommand, data := 0 } s)

/-- The checks are made in the order of R163: encoding, length, key fill, then the command. That HASH, GEN
and VRFY leave the field `x` of their port alone in that next state is the model's choice, log entry 6. -/
def Obligations.ChecksAreMadeInOrder : Prop :=
  ∀ (r : Packet) (s : State),
    (IllegalPacket r →
      executePacket r s = .next (withAnswer { status := .illegalCommand, data := 0 } s)) ∧
    (¬ IllegalPacket r → TakesAddress r → 16 < (reqAlen r).toNat →
      executePacket r s = .next (withAnswer { status := .invalidAddressLength, data := 0 } s)) ∧
    (¬ IllegalPacket r → ¬ (TakesAddress r ∧ 16 < (reqAlen r).toNat) →
      (TakesAddress r ∨ reqOp r = 0#4 →
        (s.key = none → s.ent = none → executePacket r s = .next s) ∧
        (∀ k, UsesKey s k → ∃ d, executePacket r s = .next (afterKeyed k d s))) ∧
      (¬ (TakesAddress r ∨ reqOp r = 0#4) →
        ∃ d, executePacket r s = .next (withAnswer { status := .ok, data := d } s)))

/-- HASH, GEN and VRFY with an address of more than 16 bytes answer InvalidAddressLength, whatever the key,
the entropy port and the counter are; no instruction whose length check passes ever does (R161). -/
def Obligations.OverlongAddressIsRejected : Prop :=
  ∀ (i : Instr) (s : State),
    (lengthOk i = false →
      exec i s = .next (withAnswer { status := .invalidAddressLength, data := 0 } s)) ∧
    (lengthOk i = true →
      (∀ a ∈ presented s s.cur, a.status ≠ .invalidAddressLength) →
      ∃ t, exec i s = .next t ∧ ∀ a ∈ presented t t.cur, a.status ≠ .invalidAddressLength)

/-- An error leaves everything but the failing command's request and response as it was: key, counter,
entropy, every other port, every scratch word (R164). -/
def Obligations.ErrorsChangeNothingElse : Prop :=
  ∀ (r : Packet) (s t : State) (q : Port),
    IllegalPacket r ∨ TakesAddress r ∧ 16 < (reqAlen r).toNat →
    s.ports[s.cur]? = some q → executePacket r s = .next t →
    t.key = s.key ∧ t.t = s.t ∧ t.ent = s.ent ∧ t.entTake = s.entTake ∧ t.config = s.config ∧
    t.agenda = s.agenda ∧ t.cur = s.cur ∧
    (∀ p, p ≠ s.cur → t.ports[p]? = s.ports[p]?) ∧
    ∃ st, st ≠ .ok ∧
      t.ports[s.cur]? = some { req := none, rsp := some { status := st, data := 0 }, x := q.x }

/-- A command step completes with status 0, fails with a non-zero status and result 0 and no state change,
or stalls for want of a key and of entropy, changing nothing (R13). That HASH, GEN and VRFY leave the field
`x` of their port alone in that next state is the model's choice, log entry 6. -/
def Obligations.CommandStepHasThreeOutcomes : Prop :=
  ∀ (r : Packet) (s : State),
    (∃ k d, UsesKey s k ∧ executePacket r s = .next (afterKeyed k d s)) ∨
    (∃ d, executePacket r s = .next (withAnswer { status := .ok, data := d } s)) ∨
    (∃ st, st ≠ .ok ∧ executePacket r s = .next (withAnswer { status := st, data := 0 } s)) ∨
    (s.key = none ∧ s.ent = none ∧ executePacket r s = .next s)

/-- The response packet (R64, R65): bits 1:0 are the status code, 0 for OK, 1 for InvalidAddressLength, 2 for
IllegalCommand and never 3; bits 31:2 are 0; bits 95:32 are the data. -/
def Obligations.ResponsePacketHasTheLayout : Prop :=
  ∀ a : Response,
    (a.status = .ok → (responseWord a).extractLsb' 0 2 = 0#2) ∧
    (a.status = .invalidAddressLength → (responseWord a).extractLsb' 0 2 = 1#2) ∧
    (a.status = .illegalCommand → (responseWord a).extractLsb' 0 2 = 2#2) ∧
    (responseWord a).extractLsb' 0 2 ≠ 3#2 ∧
    (responseWord a).extractLsb' 2 30 = 0#30 ∧
    (responseWord a).extractLsb' 32 64 = a.data

/-! ### KeySource (40_keysource.md) -/

/-- KINIT: the key fill, if there is no key, and the answer OK, 0; with a key, nothing but the answer; with
no key and no entropy, no step (R81). -/
def Obligations.KinitFillsTheKeyAndAnswersZero : Prop :=
  ∀ s : State,
    (∀ k, s.key = some k →
      exec .kinit s = .next (withAnswer { status := .ok, data := 0 } s)) ∧
    (∀ e, s.key = none → s.ent = some e →
      exec .kinit s = .next (withAnswer { status := .ok, data := 0 }
        { s with key := some (keyWords s.config.byteOrder e), entTake := true })) ∧
    (s.key = none → s.ent = none → exec .kinit s = .next s)

/-- Key byte `j` is lane `j mod 4` of key word `j div 4`, under either byte order (R44). -/
def Obligations.KeyBytesLandInTheirLanes : Prop :=
  ∀ (e : EntBytes) (j : Fin 64) (w : Fin 16), w.val = j.val / 4 →
    laneOf (keyWords .le e)[w] (8 * (j.val % 4)) = e[j] ∧
    laneOf (keyWords .be e)[w] (24 - 8 * (j.val % 4)) = e[j]

/-- A key-using command whose checks pass has no step while there is no key and no entropy: it neither
responds nor changes state, and stays pending on its port (R83). The step only uses up the turn (log
entry 9). -/
def Obligations.StalledCommandStaysPending : Prop :=
  ∀ (s : State) (p : Nat) (rest : List Move) (q : Port) (r : Packet) (i : Instr),
    s.agenda = .serve p :: rest → s.ports[p]? = some q → q.req = some r →
    decodeRequest r = .ok i → usesKeyFill i = true → lengthOk i = true →
    s.key = none → s.ent = none →
    step s = .next { s with agenda := rest, entTake := false, cur := p }

/-- What lifts a stall (R83): the entropy source becoming valid, another port's command having filled the
key, or reset, which drops the request. -/
def Obligations.StallIsLifted : Prop :=
  ∀ (s : State) (p : Nat) (q : Port) (r : Packet) (i : Instr),
    s.ports[p]? = some q → q.req = some r → decodeRequest r = .ok i →
    usesKeyFill i = true → lengthOk i = true → s.key = none →
    (∀ e, ∃ t d, runSteps 2 { s with agenda := [.entropy (some e), .serve p] } = .next t ∧
      t.key = some (keyWords s.config.byteOrder e) ∧
      presented t p = some { status := .ok, data := d }) ∧
    (∀ k, ∃ t d, runSteps 1 { s with key := some k, agenda := [.serve p] } = .next t ∧
      t.key = some k ∧ presented t p = some { status := .ok, data := d }) ∧
    (∃ t, runSteps 1 { s with agenda := [.reset] } = .next t ∧
      ∀ q' ∈ t.ports, q'.req = none ∧ q'.rsp = none)

/-- Once `KV = 1` no step but reset changes the key or clears `KV` (R22). -/
def Obligations.KeyIsWriteOnce : Prop :=
  ∀ (s t : State) (k : Words), step s = .next t → s.key = some k →
    s.agenda.head? ≠ some .reset → t.key = some k

/-- `KV` becomes 1 only in a step that writes all sixteen words from the 64 bytes the entropy port offers in
that step, and `ent_take` is pulsed in exactly those steps (R22, R80, R75; the pulse as a field is the
model's choice, log entry 10). -/
def Obligations.KeyComesFromTheEntropyPort : Prop :=
  ∀ s t : State, step s = .next t →
    (∀ k, s.key = none → t.key = some k →
      ∃ e, s.ent = some e ∧ k = keyWords s.config.byteOrder e ∧ t.entTake = true) ∧
    (t.entTake = true → s.key = none ∧ t.key.isSome = true)

/-- Exactly one key exists between two resets: whatever runs, a key that is there stays (R85). -/
def Obligations.KeySurvivesEveryRun : Prop :=
  ∀ (n : Nat) (s t : State) (k : Words), NoReset s.agenda → runSteps n s = .next t →
    s.key = some k → t.key = some k

/-! ### EpochClock (41_epochclock.md) -/

/-- The tick adds one to `T`, modulo 2^32, and writes `T` only (the agenda moves on, and a pulse of
`ent_take` is over); apart from reset nothing else changes `T` (R91). With an empty agenda the tick agent
moves: the model's choice, log entry 2. -/
def Obligations.OnlyTheTickMovesTheCounter : Prop :=
  (∀ (s : State) (rest : List Move), s.agenda = .tick :: rest →
    step s = .next { s with agenda := rest, entTake := false, t := s.t + 1#32 }) ∧
  (∀ s t : State, step s = .next t → s.agenda.head? ≠ some .reset → s.agenda.head? ≠ some .tick →
    s.agenda ≠ [] → t.t = s.t) ∧
  (∀ s : State, s.agenda = [] → step s = .next { s with entTake := false, t := s.t + 1#32 })

/-- Over any stretch of moves without a reset the counter advances by the number of ticks in it, modulo
2^32 (R33 (f), R91). -/
def Obligations.CounterCountsTheTicks : Prop :=
  ∀ (ms : List Move) (s t : State), NoReset ms → s.agenda = ms →
    runSteps ms.length s = .next t → t.t.toNat = (s.t.toNat + ticksIn ms) % 2 ^ 32

/-- NOW answers the floor of `T / 250` (R92, R93). -/
def Obligations.NowAnswersTheEpoch : Prop :=
  ∀ s : State, exec .now s =
    .next (withAnswer { status := .ok, data := BitVec.ofNat 64 (s.t.toNat / 250) } s)

/-- RECON answers, in integers: the epoch of the current cycle of 16 that has the bin, or, for a bin above
the current one, that epoch less 16, modulo 2^32 (R94, R95). -/
def Obligations.ReconAnswersTheReconstructedEpoch : Prop :=
  ∀ (bin : BitVec 4) (s : State), exec (.recon bin) s =
    .next (withAnswer ⟨.ok, BitVec.ofNat 64
      (if s.t.toNat / 250 % 16 < bin.toNat then
        (2 ^ 32 + s.t.toNat / 250 - s.t.toNat / 250 % 16 + bin.toNat - 16) % 2 ^ 32
      else s.t.toNat / 250 - s.t.toNat / 250 % 16 + bin.toNat)⟩ s)

/-- `now()` is at most 17179869; the low 4 bits of `reconstruct(bin)` are `bin` (R96); and unless the
subtraction goes below zero the result is the one value of the 16 epochs ending at `e` that is congruent to
`bin` modulo 16, so never in the future (R97). -/
def Obligations.ReconstructedEpochLiesInTheWindow : Prop :=
  ∀ (bin : BitVec 4) (t : Word),
    (epochNow t).toNat ≤ 17179869 ∧
    (reconstruct bin t).extractLsb' 0 4 = bin ∧
    (¬ ((epochNow t).toNat < 16 ∧ (epochNow t).toNat < bin.toNat) →
      (epochNow t).toNat ≤ (reconstruct bin t).toNat + 15 ∧
      (reconstruct bin t).toNat ≤ (epochNow t).toNat ∧
      ∀ v : Nat, (epochNow t).toNat ≤ v + 15 → v ≤ (epochNow t).toNat → v % 16 = bin.toNat →
        v = (reconstruct bin t).toNat)

/-- An epoch `E0` is recovered from its bin if and only if `0 <= e - E0 <= 15`. In milliseconds, for an epoch
taken at `T0` and a reconstruction `D` ticks later with no wrap: always for `D <= 3750`, never for
`D >= 4000`, and in between exactly when `(T0 mod 250) + (D - 3750) < 250` (R98). -/
def Obligations.EpochIsRecoveredExactlyWhenRecent : Prop :=
  (∀ t e0 : Word, e0.toNat ≤ 17179869 →
    (reconstruct (binOf e0) t = e0 ↔
      e0.toNat ≤ (epochNow t).toNat ∧ (epochNow t).toNat ≤ e0.toNat + 15)) ∧
  (∀ (t0 t1 : Word) (d : Nat), t1.toNat = t0.toNat + d →
    (epochNow t1).toNat = (epochNow t0).toNat + d / 250 +
      (if 250 ≤ t0.toNat % 250 + d % 250 then 1 else 0) ∧
    (d ≤ 3750 → reconstruct (binOf (epochNow t0)) t1 = epochNow t0) ∧
    (3751 ≤ d → d ≤ 3999 →
      (reconstruct (binOf (epochNow t0)) t1 = epochNow t0 ↔ t0.toNat % 250 + (d - 3750) < 250)) ∧
    (4000 ≤ d → reconstruct (binOf (epochNow t0)) t1 ≠ epochNow t0))

/-- In the first 16 epochs a bin above the current epoch gives `0xFFFFFFF0 + bin`, a value no `now()` can
return (R99). -/
def Obligations.StartupCornerGivesNoIssuedEpoch : Prop :=
  ∀ (bin : BitVec 4) (t : Word), (epochNow t).toNat < 16 → (epochNow t).toNat < bin.toNat →
    (reconstruct bin t).toNat = 0xFFFFFFF0 + bin.toNat ∧
    ∀ t' : Word, epochNow t' ≠ reconstruct bin t

/-- The wrap of `T` (R100): the last epoch is 46 ms long and is followed by epoch 0; an epoch taken `D` ticks
before, after any number of wraps, is recovered exactly when the counter's own epoch is 0 to 15 ahead of it;
so none taken before a wrap is recovered while the counter's epoch is below it. -/
def Obligations.WrapOfTheCounterDropsTheEpoch : Prop :=
  (∀ t : Word, epochNow t = 17179869#32 ↔ 4294967250 ≤ t.toNat) ∧
  (∀ t : Word, t.toNat = 4294967295 → t + 1#32 = 0#32 ∧ epochNow (t + 1#32) = 0#32) ∧
  (∀ (t0 : Word) (d : Nat),
    (reconstruct (binOf (epochNow t0)) (t0 + BitVec.ofNat 32 d) = epochNow t0 ↔
      t0.toNat / 250 ≤ (t0.toNat + d) % 2 ^ 32 / 250 ∧
      (t0.toNat + d) % 2 ^ 32 / 250 ≤ t0.toNat / 250 + 15)) ∧
  (∀ t0 t1 : Word, (epochNow t1).toNat < (epochNow t0).toNat →
    reconstruct (binOf (epochNow t0)) t1 ≠ epochNow t0)

/-! ### Mixer (42_mixer.md) -/

/-- ARX replaces the target word by itself xor the rotated 32-bit sum of the two sources, all read before the
write, and changes no other word, no other port and nothing else (R114). That the words are the executing
port's own and that ARX can be executed by itself is the model's choice, log entry 4. -/
def Obligations.ArxXorsTheRotatedSum : Prop :=
  ∀ (s : State) (t a b : Fin 16) (r : Fin 32),
    exec (.arx t a b r) s =
      .next { s with ports := s.ports.modify s.cur (fun q =>
        { q with x := q.x.set t (q.x[t] ^^^ (q.x[a] + q.x[b]).rotateLeft r.val) }) }

/-- Address byte `j` replaces lane `j mod 4` of word `4 + j div 4`, which stands at bit `8 * (j mod 4)` under
`LE` and at bit `24 - 8 * (j mod 4)` under `BE`; lanes that no address byte covers, and all words outside
4..7, keep their key bytes (R112, R45, R43). -/
def Obligations.AddressBytesReplaceTheirLanes : Prop :=
  ∀ (addr : AddrField) (n : Nat) (x : Words), n ≤ 16 →
    (∀ (j : Nat) (w : Fin 16), j < 16 → w.val = 4 + j / 4 →
      (laneOf (overlayBytes .le addr n x)[w] (8 * (j % 4)) =
        if j < n then addr.extractLsb' (8 * j) 8 else laneOf x[w] (8 * (j % 4))) ∧
      (laneOf (overlayBytes .be addr n x)[w] (24 - 8 * (j % 4)) =
        if j < n then addr.extractLsb' (8 * j) 8 else laneOf x[w] (24 - 8 * (j % 4)))) ∧
    (∀ (o : ByteOrder) (w : Fin 16), w.val < 4 ∨ 8 ≤ w.val →
      (overlayBytes o addr n x)[w] = x[w])

/-- After steps 1 to 3 the words 6 and 10 have the epoch added, each by itself, and every other word is the
key's with the address lanes replaced; words 0..3, 8, 9 and 11..15 are pure key (R111, R113). -/
def Obligations.MixingStartsFromKeyAddressAndEpoch : Prop :=
  ∀ (c : Config) (k : Words) (addr : AddrField) (n : Nat) (e : Word) (w : Fin 16), n ≤ 16 →
    ((w = 6 ∨ w = 10) →
      (mixInit c k addr n e)[w] = (overlayBytes c.byteOrder addr n k)[w] + e) ∧
    (w ≠ 6 → w ≠ 10 → (mixInit c k addr n e)[w] = (overlayBytes c.byteOrder addr n k)[w]) ∧
    (w.val < 4 ∨ w = 8 ∨ w = 9 ∨ 11 ≤ w.val → (mixInit c k addr n e)[w] = k[w])

/-- The digest is what 96 ARX instructions, the schedule's 32 in order three times, make of the starting
state, folded: executing them one by one on a port whose scratch words hold that state leaves words whose
words 0, 5, 10 and 15 xor to the digest (R110, R115, R118; executing ARX by itself is the model's choice, log
entry 4). -/
def Obligations.DigestIsNinetySixArxInstructions : Prop :=
  ∀ (s : State) (q : Port) (k : Words) (addr : AddrField) (n : Nat) (e : Word),
    s.ports[s.cur]? = some q → q.x = mixInit s.config k addr n e →
    (scheduleInstrs s.config.schedule ++ scheduleInstrs s.config.schedule ++
      scheduleInstrs s.config.schedule).length = 96 ∧
    ∃ t q', execAll (scheduleInstrs s.config.schedule ++ scheduleInstrs s.config.schedule ++
        scheduleInstrs s.config.schedule) s = .next t ∧
      t.ports[s.cur]? = some q' ∧
      q'.x[0] ^^^ q'.x[5] ^^^ q'.x[10] ^^^ q'.x[15] = mixerHash s.config k addr n e

/-- HASH with an address of at most 16 bytes, where a key can be used, answers the digest of the address and
the given epoch; the key is filled if it was not there, and nothing else changes (R119). That this leaves
the field `x` of the port alone is the model's choice, log entry 6. -/
def Obligations.HashAnswersTheDigest : Prop :=
  ∀ (s : State) (k : Words) (n : Nat) (addr : AddrField) (e : Word), n ≤ 16 → UsesKey s k →
    exec (.hash n addr e) s =
      .next (afterKeyed k ((mixerHash s.config k addr n e).setWidth 64) s)

/-- Given the key, the digest depends on the address bytes before the length and on the epoch alone; so HASH,
GEN and VRFY do not see what stands at or beyond the length (R122, R62). -/
def Obligations.DigestIgnoresBytesBeyondTheLength : Prop :=
  ∀ (addr addr' : AddrField) (n : Nat),
    (∀ j, j < n → j < 16 → addr.extractLsb' (8 * j) 8 = addr'.extractLsb' (8 * j) 8) →
    (∀ (c : Config) (k : Words) (e : Word), n ≤ 16 →
      mixerHash c k addr n e = mixerHash c k addr' n e) ∧
    ∀ (s : State) (e : Word) (cookie : DWord),
      exec (.hash n addr e) s = exec (.hash n addr' e) s ∧
      exec (.gen n addr) s = exec (.gen n addr') s ∧
      exec (.vrfy n addr cookie) s = exec (.vrfy n addr' cookie) s

/-- The length is not absorbed: an address and the one made by appending the key byte that sits in the next
lane have the same digest, and an address equal to the key bytes it replaces has the digest of the empty
address (R121). -/
def Obligations.AddressLengthIsNotAbsorbed : Prop :=
  ∀ (c : Config) (k : Words) (addr : AddrField) (n : Nat) (e : Word),
    (∀ w : Fin 16, n < 16 → w.val = 4 + n / 4 →
      addr.extractLsb' (8 * n) 8 = laneOf k[w] (laneLo c.byteOrder n) →
      mixerHash c k addr (n + 1) e = mixerHash c k addr n e) ∧
    (n ≤ 16 →
      (∀ (j : Nat) (w : Fin 16), j < n → w.val = 4 + j / 4 →
        addr.extractLsb' (8 * j) 8 = laneOf k[w] (laneLo c.byteOrder j)) →
      mixerHash c k addr n e = mixerHash c k 0 0 e)

/-- An ARX operation that does not read its target undoes itself, a schedule of such operations permutes the
16-word states, and the default schedule is one, with every word the target of exactly one operation of the
column half and one of the row half (R123). -/
def Obligations.PermutationIsBijective : Prop :=
  (∀ (u : MicroOp) (x : Words), u.t ≠ u.a → u.t ≠ u.b → arxWord u (arxWord u x) = x) ∧
  (∀ sch : Schedule, Invertible sch → Function.Bijective (permute sch)) ∧
  Invertible Config.default.schedule ∧
  ∀ w : Fin 16,
    ((Config.default.schedule.toList.take 16).countP (fun u => u.t == w)) = 1 ∧
    ((Config.default.schedule.toList.drop 16).countP (fun u => u.t == w)) = 1

/-- What R117 asks of any value of `SCHEDULE`: under legal parameters the three double-rounds permute the
16-word states (f), and the operations of two mixes of one round do not interfere, in whatever order they
run (d); the default is legal. That (d) and (f) are the checks of `Config.legal` is DEDUCED, log entry 20. -/
def Obligations.LegalSchedulesPermuteInMixes : Prop :=
  (∀ c : Config, c.legal = true →
    Function.Bijective (permute c.schedule) ∧
    ∀ (m n : Nat) (u v : MicroOp), m < 8 → n < 8 → m ≠ n → m / 4 = n / 4 →
      u ∈ mixOf c.schedule m → v ∈ mixOf c.schedule n →
      ∀ x : Words, arxWord u (arxWord v x) = arxWord v (arxWord u x)) ∧
  Config.default.legal = true

/-- Under the all-zero key, the empty address at epoch 0 has digest 0 whatever the schedule is: every word
stays 0 through every ARX operation (R119). -/
def Obligations.AllZeroStateHasDigestZero : Prop :=
  ∀ (c : Config) (addr : AddrField), mixerHash c (Vector.replicate 16 0#32) addr 0 0#32 = 0#32

/-! ### CookieCodec (43_cookiecodec.md) -/

/-- PACK answers the digest times 16 plus the low 4 bits of the epoch: nothing above bit 35, nothing
sign-extended (R141, R142). -/
def Obligations.PackAnswersTheCookie : Prop :=
  ∀ (digest epoch : Word) (s : State), exec (.pack digest epoch) s =
    .next (withAnswer
      { status := .ok, data := BitVec.ofNat 64 (16 * digest.toNat + epoch.toNat % 16) } s)

/-- UNPK answers the cookie's low 4 bits, for any 64-bit value; of a packed cookie they are the epoch's
(R143, R144). -/
def Obligations.UnpkAnswersTheBin : Prop :=
  (∀ (cookie : DWord) (s : State), exec (.unpk cookie) s =
    .next (withAnswer { status := .ok, data := BitVec.ofNat 64 (cookie.toNat % 16) } s)) ∧
  ∀ digest epoch : Word, unpackBin (packCookie digest epoch) = epoch.extractLsb' 0 4

/-- GEN with an address of at most 16 bytes, where a key can be used, answers the cookie of the address at
the epoch of its one reading of `T` (R145). That this leaves the field `x` of the port alone is the model's
choice, log entry 6. -/
def Obligations.GenAnswersTheCookieOfNow : Prop :=
  ∀ (s : State) (k : Words) (n : Nat) (addr : AddrField), n ≤ 16 → UsesKey s k →
    exec (.gen n addr) s =
      .next (afterKeyed k
        (packCookie (mixerHash s.config k addr n (epochNow s.t)) (epochNow s.t)) s)

/-- Of a cookie GEN answers, bits 3:0 are the current epoch's, bits 35:4 are the digest of the address at the
current epoch, and bits 63:36 are 0 (R151). -/
def Obligations.GenCookieHasTheLayout : Prop :=
  ∀ (s : State) (k : Words) (n : Nat) (addr : AddrField), n ≤ 16 → UsesKey s k →
    s.cur < s.ports.length →
    ∃ t c, exec (.gen n addr) s = .next t ∧
      presented t s.cur = some { status := .ok, data := c } ∧
      c.extractLsb' 0 4 = (epochNow s.t).extractLsb' 0 4 ∧
      c.extractLsb' 4 32 = mixerHash s.config k addr n (epochNow s.t) ∧
      c.extractLsb' 36 28 = 0#28

/-- Two GEN commands with the same address under the same key whose steps see the same `now()` answer the
same 64-bit cookie (R150). The next states name the port's field `x` as log entry 6 chooses. -/
def Obligations.GenIsDeterministicWithinABin : Prop :=
  ∀ (s s' : State) (k : Words) (n : Nat) (addr addr' : AddrField), n ≤ 16 →
    (∀ j, j < n → addr.extractLsb' (8 * j) 8 = addr'.extractLsb' (8 * j) 8) →
    UsesKey s k → UsesKey s' k → s.config = s'.config → epochNow s.t = epochNow s'.t →
    ∃ c, exec (.gen n addr) s = .next (afterKeyed k c s) ∧
      exec (.gen n addr') s' = .next (afterKeyed k c s')

/-- VRFY with an address of at most 16 bytes, where a key can be used, answers 1 if the cookie that `pack`
makes of the digest at the reconstructed epoch is the cookie, all 64 bits, and else 0: one bit and nothing
else (R146, R147). That this leaves the field `x` of the port alone is the model's choice, log entry 6. -/
def Obligations.VrfyAnswersTheVerdict : Prop :=
  ∀ (s : State) (k : Words) (n : Nat) (addr : AddrField) (cookie : DWord), n ≤ 16 → UsesKey s k →
    exec (.vrfy n addr cookie) s =
      .next (afterKeyed k
        (if packCookie (mixerHash s.config k addr n (reconstruct (cookie.extractLsb' 0 4) s.t))
            (reconstruct (cookie.extractLsb' 0 4) s.t) = cookie
          then 1#64 else 0#64) s)

/-- The verdict is 1 exactly when bits 63:36 of the cookie are 0 and its bits 35:4 are the digest of the
address at the reconstructed epoch; the bin always agrees (R146, R152, R186). -/
def Obligations.VerdictIsADigestMatch : Prop :=
  ∀ (c : Config) (k : Words) (addr : AddrField) (n : Nat) (cookie : DWord) (t : Word),
    verdict c k addr n cookie t = true ↔
      cookie.extractLsb' 36 28 = 0#28 ∧
      cookie.extractLsb' 4 32 = mixerHash c k addr n (reconstruct (cookie.extractLsb' 0 4) t)

/-- No record of a cookie is kept: a second VRFY of it, on any port, after the first, answers the same
(R152, R6). The next states name the port's field `x` as log entry 6 chooses. -/
def Obligations.VrfyKeepsNoRecord : Prop :=
  ∀ (s t : State) (k : Words) (n : Nat) (addr : AddrField) (cookie : DWord) (p : Nat), n ≤ 16 →
    UsesKey s k → exec (.vrfy n addr cookie) s = .next t →
    ∃ d, t = afterKeyed k d s ∧
      exec (.vrfy n addr cookie) { t with cur := p } = .next (afterKeyed k d { t with cur := p })

/-- Round trip (R148): a cookie GEN has answered is verified, on any port, after any interleaving of moves
of all agents but reset in which at most 3750 ms elapse and `T` does not wrap. That the VRFY leaves the
field `x` of its port alone in its next state is the model's choice, log entry 6. -/
def Obligations.FreshCookieIsAcceptedAfterAnyInterleaving : Prop :=
  ∀ (s s1 s2 : State) (k : Words) (n : Nat) (addr : AddrField) (cookie : DWord) (ms : List Move)
    (p : Nat),
    n ≤ 16 → UsesKey s k → exec (.gen n addr) s = .next s1 →
    presented s1 s.cur = some { status := .ok, data := cookie } →
    NoReset ms → ticksIn ms ≤ 3750 → s.t.toNat + ticksIn ms < 2 ^ 32 →
    runSteps ms.length { s1 with agenda := ms } = .next s2 →
    exec (.vrfy n addr cookie) { s2 with cur := p } =
      .next (withAnswer { status := .ok, data := 1 } { s2 with cur := p })

/-- Expiry (R148, R149): with the names and conditions of the round trip, after 4000 ms or more a cookie is
accepted only if two different inputs of the hash have the same digest, and after 3751 to 3999 ms only then
or if it was issued early enough in its bin. That the VRFY leaves the field `x` of its port alone in its
next state is the model's choice, log entry 6. -/
def Obligations.ExpiredCookieNeedsACollision : Prop :=
  ∀ (s s1 s2 : State) (k : Words) (n : Nat) (addr : AddrField) (cookie : DWord) (ms : List Move)
    (p : Nat),
    n ≤ 16 → UsesKey s k → exec (.gen n addr) s = .next s1 →
    presented s1 s.cur = some { status := .ok, data := cookie } →
    NoReset ms → 3751 ≤ ticksIn ms → s.t.toNat + ticksIn ms < 2 ^ 32 →
    runSteps ms.length { s1 with agenda := ms } = .next s2 →
    ∃ d, exec (.vrfy n addr cookie) { s2 with cur := p } =
        .next (withAnswer { status := .ok, data := d } { s2 with cur := p }) ∧
      (d = 1 ↔
        ticksIn ms ≤ 3999 ∧ s.t.toNat % 250 + (ticksIn ms - 3750) < 250 ∨
        ∃ e', e' ≠ epochNow s.t ∧ e' = reconstruct (binOf (epochNow s.t)) s2.t ∧
          mixerHash s.config k addr n e' = mixerHash s.config k addr n (epochNow s.t)) ∧
      (d ≠ 1 → d = 0)

/-! ### The machine: steps, ports, reset, invariants -/

/-- When the request in flight on port `p` decodes to `i` and it is the port's turn, the step is `exec i`,
with the port made current, the turn used up and an earlier `ent_take` over; when it does not decode, the
step answers IllegalCommand there (R12, R163). -/
def Obligations.StepRunsTheDecodedCommand : Prop :=
  ∀ (s : State) (p : Nat) (rest : List Move) (q : Port) (r : Packet),
    s.agenda = .serve p :: rest → s.ports[p]? = some q → q.req = some r →
    (∀ i, decodeRequest r = .ok i →
      step s = exec i { s with agenda := rest, entTake := false, cur := p }) ∧
    (∀ e, decodeRequest r = .error e →
      step s = .next (withAnswer { status := .illegalCommand, data := 0 }
        { s with agenda := rest, entTake := false, cur := p }))

/-- When a micro-operation word is the next move for a port that exists, the step is `exec` of the ARX it
decodes to, with the port made current and the turn used up (R72; log entry 4). -/
def Obligations.StepRunsTheDecodedMicroOp : Prop :=
  ∀ (s : State) (p : Nat) (rest : List Move) (w : UopWord),
    s.agenda = .microOp p w :: rest → p < s.ports.length →
    step s = exec (decodeUop w) { s with agenda := rest, entTake := false, cur := p }

/-- A request presented on a port with none in flight is taken, and the port presents no response until it
has one to it; on a port with one in flight it is not taken, and nothing changes (R75; log entries 11, 12). -/
def Obligations.RequestIsTakenOnlyByAFreePort : Prop :=
  ∀ (s : State) (p : Nat) (r : Packet) (rest : List Move) (q : Port),
    s.agenda = .request p r :: rest → s.ports[p]? = some q →
    (q.req = none →
      step s = .next { s with
        agenda := rest
        entTake := false
        ports := s.ports.modify p (fun q => { q with req := some r, rsp := none }) }) ∧
    (q.req.isSome = true → step s = .next { s with agenda := rest, entTake := false })

/-- What the entropy port offers is the environment's to change, and changing it changes nothing else
(R74, R29; as a move of the environment: the model's choice, log entries 1 and 10). -/
def Obligations.EntropyOfferIsTheEnvironments : Prop :=
  ∀ (s t : State),
    (∀ offer rest, s.agenda = .entropy offer :: rest →
      step s = .next { s with agenda := rest, entTake := false, ent := offer }) ∧
    (step s = .next t → (∀ offer, s.agenda.head? ≠ some (.entropy offer)) → t.ent = s.ent)

/-- Reset, in any state, puts every state element at its reset value and drops every request in flight, on
every port, without a response (R180, R32); the parameters and the inputs stay (R29; log entry 16). -/
def Obligations.ResetForgetsEverything : Prop :=
  ∀ (s : State) (rest : List Move), s.agenda = .reset :: rest →
    ∃ t, step s = .next t ∧
      t.key = none ∧ t.kv = false ∧ t.t = 0#32 ∧ t.config = s.config ∧ t.ent = s.ent ∧
      t.entTake = false ∧ t.agenda = rest ∧ t.ports.length = s.config.nport ∧
      ∀ q ∈ t.ports, q.req = none ∧ q.rsp = none

/-- After reset `KV = 0` (so no `KEY`), `T = 0`, and no request is in flight on any of the `NPORT` ports, of
which the default is one (R32, R8; `KEY` absent under `KV = 0` as R21 asks, log entry 7). -/
def Obligations.ResetStateHasTheSpecsValues : Prop :=
  State.reset.kv = false ∧ State.reset.key = none ∧ State.reset.t = 0#32 ∧
  State.reset.ports.length = 1 ∧ ∀ q ∈ State.reset.ports, q.req = none

/-- Every step keeps the invariant: legal parameters, `NPORT` ports (so at least one), no response presented
while a request is in flight, data 0 in every error answer (R8, R64, R75, R117, R170; what R117 (d) and (f)
ask is DEDUCED, log entry 20; a response latched until the port takes its next request is the model's
choice, log entry 11). -/
def Obligations.EveryStepKeepsTheInvariant : Prop :=
  ∀ s t : State, StateOk s → step s = .next t → StateOk t

/-- The invariant holds after reset, whatever legal parameters the block has (R32, R8, R117); the defaults
are legal. That `Config.legal` is what R117 (d) and (f) ask of a schedule is DEDUCED, log entry 20. -/
def Obligations.InvariantHoldsAtReset : Prop :=
  StateOk State.reset ∧ ∀ c : Config, c.legal = true → StateOk (State.resetWith c)

/-- What a command leaves alone (R31, R49): the parameters, the counter, the entropy port's offer, the
agenda, every other port and every scratch word; and the key, unless it calls the key fill; where a key is
there, every command leaves it. NOW, RECON, PACK and UNPK change nothing but their port's request and
response. That HASH, GEN and VRFY, which by R31 use `X`, leave the field `x` of their port as it was is the
model's choice, log entry 6, not R31's or R49's. -/
def Obligations.CommandsLeaveTheRestAlone : Prop :=
  ∀ (i : Instr) (s t : State), isCommand i = true → exec i s = .next t →
    t.config = s.config ∧ t.t = s.t ∧ t.ent = s.ent ∧ t.agenda = s.agenda ∧ t.cur = s.cur ∧
    t.ports.length = s.ports.length ∧
    (∀ p, p ≠ s.cur → t.ports[p]? = s.ports[p]?) ∧
    (∀ p : Nat, (t.ports[p]?).map Port.x = (s.ports[p]?).map Port.x) ∧
    (usesKeyFill i = false ∨ s.key.isSome = true ∨ lengthOk i = false →
      t.key = s.key ∧ t.entTake = s.entTake)

/-- What a command does not read (the columns `reads KEY` and `reads T` of R31; R23): NOW, RECON, PACK and
UNPK answer the same whatever the key is; KINIT, HASH, PACK and UNPK answer the same whatever the counter
is; and KINIT, which may fill the key, answers the same whichever key is there. -/
def Obligations.CommandsReadOnlyWhatTheMatrixSays : Prop :=
  (∀ (i : Instr) (s : State) (key : Option Words), isCommand i = true → usesKeyFill i = false →
    exec i { s with key := key } = mapNext (fun u => { u with key := key }) (exec i s)) ∧
  ∀ (s : State) (c : Word) (n : Nat) (addr : AddrField) (e d : Word) (cookie : DWord),
    exec .kinit { s with t := c } = mapNext (fun u => { u with t := c }) (exec .kinit s) ∧
    exec (.hash n addr e) { s with t := c } =
      mapNext (fun u => { u with t := c }) (exec (.hash n addr e) s) ∧
    exec (.pack d e) { s with t := c } =
      mapNext (fun u => { u with t := c }) (exec (.pack d e) s) ∧
    exec (.unpk cookie) { s with t := c } =
      mapNext (fun u => { u with t := c }) (exec (.unpk cookie) s) ∧
    ∀ k k' : Words, exec .kinit { s with key := some k' } =
      mapNext (fun u => { u with key := some k' }) (exec .kinit { s with key := some k })

/-- The scratch words are invisible: what a step does, but for the scratch words themselves, does not depend
on them (R25, R30; that they are a field at all is the model's choice, log entry 4). -/
def Obligations.ScratchWordsAreInvisible : Prop :=
  ∀ s : State,
    mapNext eraseScratch (step s) = mapNext eraseScratch (step (eraseScratch s))

/-- The result of a command does not depend on the port it came from (R170). -/
def Obligations.ResultDoesNotDependOnThePort : Prop :=
  ∀ (i : Instr) (s : State) (p p' : Nat), isCommand i = true →
    (usesKeyFill i = true → s.key.isSome = true ∨ s.ent.isSome = true) →
    p < s.ports.length → p' < s.ports.length →
    ∃ t t' a, exec i { s with cur := p } = .next t ∧ exec i { s with cur := p' } = .next t' ∧
      presented t p = some a ∧ presented t' p' = some a ∧ t.key = t'.key ∧ t.t = t'.t

/-- Nothing else can go wrong (R160): a step whose move names no port the block lacks always gives a next
state. A move that names one does not happen in the hardware and faults in the model (log entry 13). -/
def Obligations.StepStopsOnlyForAnAbsentPort : Prop :=
  ∀ s : State,
    ((∀ m p, s.agenda.head? = some m → movePort m = some p → p < s.ports.length) →
      ∃ t, step s = .next t) ∧
    (∀ m p, s.agenda.head? = some m → movePort m = some p → s.ports.length ≤ p →
      step s = .fault .noSuchPort)
end

