-- ==== Sys2Proof/Laws/Config.lean ====
section
/-! SUPPORT. What legal parameters give: a port, a schedule whose operations do not read their target, and
mixes of one round that share no word. -/

namespace Sys2Proof.Laws

theorem legal_iff (c : Config) :
    c.legal = true ↔ 1 ≤ c.nport ∧ Invertible c.schedule ∧ formsMixes c.schedule = true := by
  simp only [Config.legal, Bool.and_eq_true, decide_eq_true_eq]

theorem mem_mixWords (sch : Schedule) (m : Nat) (w : Fin 16) :
    w ∈ mixWords sch m ↔ ∃ u ∈ mixOf sch m, u.t = w ∨ u.a = w ∨ u.b = w := by
  simp only [mixWords, List.mem_filter, List.mem_finRange, true_and, List.any_eq_true, Bool.or_eq_true,
    beq_iff_eq, or_assoc]

theorem sharedWords_of_formsMixes {sch : Schedule} (h : formsMixes sch = true) {m n : Nat} (hm : m < 8)
    (hn : n < 8) : sharedWords sch m n = if m = n then 4 else if m / 4 = n / 4 then 0 else 1 :=
  beq_iff_eq.mp (List.all_eq_true.mp (List.all_eq_true.mp h m (List.mem_range.mpr hm)) n
    (List.mem_range.mpr hn))

/-- Two mixes of one round have no word in common. -/
theorem not_mem_mixWords_of_same_round {sch : Schedule} (h : formsMixes sch = true) {m n : Nat}
    (hm : m < 8) (hn : n < 8) (hne : m ≠ n) (hr : m / 4 = n / 4) {w : Fin 16}
    (hw : w ∈ mixWords sch m) : w ∉ mixWords sch n := by
  have h0 : sharedWords sch m n = 0 := by
    rw [sharedWords_of_formsMixes h hm hn, if_neg hne, if_pos hr]
  simpa using List.countP_eq_zero.mp h0 w hw

end Sys2Proof.Laws
end

