-- ==== Sys2Proof/Laws/Decode.lean ====
section
/-! SUPPORT. The fields of an encoded request packet and of an encoded micro-operation word read back what
was put there. -/

namespace Sys2Proof

section requestPacket
variable (op : BitVec 4) (alen : BitVec 8) (addr : AddrField) (arg : DWord)

/-- The bits of a request packet. -/
theorem requestPacket_bit (i : Nat) :
    (requestPacket op alen addr arg).getLsbD i =
      (decide (i < 224) && (decide (160 ≤ i) && arg.getLsbD (i - 160) ||
        decide (32 ≤ i) && addr.getLsbD (i - 32) || decide (8 ≤ i) && alen.getLsbD (i - 8) ||
        op.getLsbD i)) := by
  simp only [requestPacket, BitVec.getLsbD_or, BitVec.getLsbD_shiftLeft, BitVec.getLsbD_setWidth]
  by_cases h : i < 224
  · have h1 : i - 160 < 224 := by omega
    have h2 : i - 32 < 224 := by omega
    have h3 : i - 8 < 224 := by omega
    simp only [h, h1, h2, h3, decide_true, Bool.true_and, ← decide_not, Nat.not_lt]
  · simp [h]

@[simp] theorem reqOp_requestPacket : reqOp (requestPacket op alen addr arg) = op := by
  unfold reqOp
  ext i hi
  rw [BitVec.getElem_extractLsb', requestPacket_bit]
  have h1 : ¬ 160 ≤ 0 + i := by omega
  have h2 : ¬ 32 ≤ 0 + i := by omega
  have h3 : ¬ 8 ≤ 0 + i := by omega
  simp only [h1, h2, h3]
  simp [show i < 224 by omega, BitVec.getLsbD_eq_getElem hi]
@[simp] theorem reqRsv0_requestPacket : reqRsv0 (requestPacket op alen addr arg) = 0#4 := by
  unfold reqRsv0
  ext i hi
  rw [BitVec.getElem_extractLsb', requestPacket_bit]
  have h1 : ¬ 160 ≤ 4 + i := by omega
  have h2 : ¬ 32 ≤ 4 + i := by omega
  have h3 : ¬ 8 ≤ 4 + i := by omega
  simp [h1, h2, h3]
@[simp] theorem reqAlen_requestPacket : reqAlen (requestPacket op alen addr arg) = alen := by
  unfold reqAlen
  ext i hi
  rw [BitVec.getElem_extractLsb', requestPacket_bit]
  have h1 : ¬ 160 ≤ 8 + i := by omega
  have h2 : ¬ 32 ≤ 8 + i := by omega
  simp [h1, h2, BitVec.getLsbD_of_ge op (8 + i) (by omega), show 8 + i < 224 by omega,
    BitVec.getLsbD_eq_getElem hi]
@[simp] theorem reqRsv1_requestPacket : reqRsv1 (requestPacket op alen addr arg) = 0#16 := by
  unfold reqRsv1
  ext i hi
  rw [BitVec.getElem_extractLsb', requestPacket_bit]
  have h1 : ¬ 160 ≤ 16 + i := by omega
  have h2 : ¬ 32 ≤ 16 + i := by omega
  simp [h1, h2, BitVec.getLsbD_of_ge op (16 + i) (by omega),
    BitVec.getLsbD_of_ge alen (16 + i - 8) (by omega)]
@[simp] theorem reqAddr_requestPacket : reqAddr (requestPacket op alen addr arg) = addr := by
  unfold reqAddr
  ext i hi
  rw [BitVec.getElem_extractLsb', requestPacket_bit]
  have h1 : ¬ 160 ≤ 32 + i := by omega
  simp [h1, BitVec.getLsbD_of_ge op (32 + i) (by omega), show 32 + i < 224 by omega,
    BitVec.getLsbD_of_ge alen (32 + i - 8) (by omega), BitVec.getLsbD_eq_getElem hi]
@[simp] theorem reqArg_requestPacket : reqArg (requestPacket op alen addr arg) = arg := by
  unfold reqArg
  ext i hi
  rw [BitVec.getElem_extractLsb', requestPacket_bit]
  simp [BitVec.getLsbD_of_ge op (160 + i) (by omega), show 160 + i < 224 by omega,
    BitVec.getLsbD_of_ge alen (160 + i - 8) (by omega),
    BitVec.getLsbD_of_ge addr (160 + i - 32) (by omega), BitVec.getLsbD_eq_getElem hi]
end requestPacket

section uopWord
variable (t a b : Fin 16) (r : Fin 32)

/-- The bits of a micro-operation word. -/
theorem uopWord_toNat :
    (uopWord t a b r).toNat = t.val + 16 * a.val + 256 * b.val + 4096 * r.val := by
  have ht := t.isLt
  have ha := a.isLt
  have hb := b.isLt
  have hr := r.isLt
  have shifted : ∀ (n m : Nat), n < 2 ^ 17 → n * 2 ^ m < 2 ^ 17 →
      (BitVec.ofNat 17 n <<< m).toNat = 2 ^ m * n := by
    intro n m h1 h2
    rw [BitVec.toNat_shiftLeft, BitVec.toNat_ofNat, Nat.shiftLeft_eq, Nat.mod_eq_of_lt h1,
      Nat.mod_eq_of_lt h2, Nat.mul_comm]
  have h1 : 2 ^ 12 * r.val ||| 2 ^ 8 * b.val = 2 ^ 12 * r.val + 2 ^ 8 * b.val :=
    (Nat.two_pow_add_eq_or_of_lt (by omega) _).symm
  have h2 : 2 ^ 12 * r.val + 2 ^ 8 * b.val ||| 2 ^ 4 * a.val =
      2 ^ 12 * r.val + 2 ^ 8 * b.val + 2 ^ 4 * a.val := by
    have := Nat.two_pow_add_eq_or_of_lt (i := 8) (b := 2 ^ 4 * a.val) (by omega)
      (2 ^ 4 * r.val + b.val)
    rw [show 2 ^ 8 * (2 ^ 4 * r.val + b.val) = 2 ^ 12 * r.val + 2 ^ 8 * b.val by omega] at this
    exact this.symm
  have h3 : 2 ^ 12 * r.val + 2 ^ 8 * b.val + 2 ^ 4 * a.val ||| t.val =
      2 ^ 12 * r.val + 2 ^ 8 * b.val + 2 ^ 4 * a.val + t.val := by
    have := Nat.two_pow_add_eq_or_of_lt (i := 4) (b := t.val) (by omega)
      (2 ^ 8 * r.val + 2 ^ 4 * b.val + a.val)
    rw [show 2 ^ 4 * (2 ^ 8 * r.val + 2 ^ 4 * b.val + a.val) =
      2 ^ 12 * r.val + 2 ^ 8 * b.val + 2 ^ 4 * a.val by omega] at this
    exact this.symm
  rw [uopWord, BitVec.toNat_or, BitVec.toNat_or, BitVec.toNat_or,
    shifted r.val 12 (by omega) (by omega), shifted b.val 8 (by omega) (by omega),
    shifted a.val 4 (by omega) (by omega), BitVec.toNat_ofNat, Nat.mod_eq_of_lt (by omega), h1, h2, h3]
  omega

@[simp] theorem uopT_uopWord : uopT (uopWord t a b r) = t := by
  have h := uopWord_toNat t a b r
  have hr := r.isLt
  apply Fin.ext
  show ((uopWord t a b r).extractLsb' 0 4).toNat = t.val
  rw [BitVec.extractLsb'_toNat, Nat.shiftRight_eq_div_pow, h]
  omega

@[simp] theorem uopA_uopWord : uopA (uopWord t a b r) = a := by
  have h := uopWord_toNat t a b r
  have hr := r.isLt
  apply Fin.ext
  show ((uopWord t a b r).extractLsb' 4 4).toNat = a.val
  rw [BitVec.extractLsb'_toNat, Nat.shiftRight_eq_div_pow, h]
  omega

@[simp] theorem uopB_uopWord : uopB (uopWord t a b r) = b := by
  have h := uopWord_toNat t a b r
  have hr := r.isLt
  apply Fin.ext
  show ((uopWord t a b r).extractLsb' 8 4).toNat = b.val
  rw [BitVec.extractLsb'_toNat, Nat.shiftRight_eq_div_pow, h]
  omega

@[simp] theorem uopR_uopWord : uopR (uopWord t a b r) = r := by
  have h := uopWord_toNat t a b r
  have hr := r.isLt
  apply Fin.ext
  show ((uopWord t a b r).extractLsb' 12 5).toNat = r.val
  rw [BitVec.extractLsb'_toNat, Nat.shiftRight_eq_div_pow, h]
  omega

end uopWord

/-- A length that fits its field is what the field holds (R61, R62). -/
theorem alenField_toNat {alen : Nat} (h : alen ≤ 255) : (alenField alen).toNat = alen := by
  simp only [alenField, BitVec.toNat_ofNat]
  omega

/-- The scalar fields of `arg` read back (R67). -/
@[simp] theorem argBin_setWidth (bin : BitVec 4) : argBin (bin.setWidth 64) = bin := by
  unfold argBin
  ext i hi
  simp [hi, show i < 64 by omega]

@[simp] theorem argLow_setWidth (v : Word) : argLow (v.setWidth 64) = v := by
  unfold argLow
  ext i hi
  simp [hi, show i < 64 by omega]

@[simp] theorem argLow_packArg (digest epoch : Word) : argLow (packArg digest epoch) = digest := by
  unfold argLow packArg
  ext i h
  simp [h, show i < 64 by omega]

@[simp] theorem argHigh_packArg (digest epoch : Word) : argHigh (packArg digest epoch) = epoch := by
  unfold argHigh packArg
  ext i h
  simp [show 32 + i < 64 by omega, BitVec.getLsbD_eq_getElem h]

end Sys2Proof
end

