-- ==== Sys2Proof/Laws/Epoch.lean ====
section
/-! SUPPORT. The epoch clock and the codec in integers (spec/41_epochclock.md R92, R94): what the bit
operations compute. -/

namespace Sys2Proof.Machine

/-- `now()` is the floor of `T / 250` (R92). -/
theorem epochNow_toNat (t : Word) : (epochNow t).toNat = t.toNat / 250 := by
  simp [epochNow, BIN_WIDTH_MS]

/-- The bin is the epoch modulo 16 (R90). -/
theorem binOf_toNat (e : Word) : (binOf e).toNat = e.toNat % 16 := by
  simp [binOf]

/-- The candidate of R94: the epoch's cycle of 16 with the bin in place of its low 4 bits. -/
theorem candidate_toNat (e : Word) (bin : BitVec 4) :
    ((e &&& 0xFFFFFFF0#32) ||| bin.setWidth 32).toNat = e.toNat / 16 * 16 + bin.toNat := by
  have hb := bin.isLt
  have h1 : e &&& 0xFFFFFFF0#32 = (e >>> 4) <<< 4 := by
    have hm : ∀ m < 32, (0xFFFFFFF0#32).getLsbD m = decide (4 ≤ m) := by decide
    ext i hi
    have := hm i hi
    rw [BitVec.getLsbD_eq_getElem hi] at this
    by_cases h : i < 4
    · simp [this, h, show ¬ 4 ≤ i by omega]
    · simp [this, h, show 4 ≤ i by omega, show 4 + (i - 4) = i by omega,
        BitVec.getLsbD_eq_getElem hi]
  have h2 : ((e >>> 4) <<< 4).toNat = 2 ^ 4 * (e.toNat / 16) := by
    have := e.isLt
    rw [BitVec.toNat_shiftLeft, BitVec.toNat_ushiftRight, Nat.shiftLeft_eq, Nat.shiftRight_eq_div_pow]
    omega
  rw [h1, BitVec.toNat_or, h2, BitVec.toNat_setWidth,
    Nat.mod_eq_of_lt (show bin.toNat < 2 ^ 32 by omega), ← Nat.two_pow_add_eq_or_of_lt hb]
  omega

/-- `reconstruct` in integers (R94): the epoch of this cycle of 16 with that bin, or, for a bin above the
current one, of the cycle before, modulo 2^32. -/
theorem reconstruct_toNat (bin : BitVec 4) (t : Word) :
    (reconstruct bin t).toNat =
      if t.toNat / 250 % 16 < bin.toNat then
        (2 ^ 32 + t.toNat / 250 / 16 * 16 + bin.toNat - 16) % 2 ^ 32
      else t.toNat / 250 / 16 * 16 + bin.toNat := by
  have hb := bin.isLt
  have ht := t.isLt
  have hc := candidate_toNat (epochNow t) bin
  rw [epochNow_toNat] at hc
  simp only [reconstruct, BitVec.lt_def, binOf_toNat, epochNow_toNat]
  split
  · rw [BitVec.toNat_sub, hc]
    simp only [BitVec.toNat_ofNat]
    omega
  · exact hc

/-- The low 4 bits of a cookie are the epoch's (R143). -/
theorem unpackBin_packCookie (d e : Word) : unpackBin (packCookie d e) = binOf e := by
  unfold unpackBin packCookie binOf
  ext i hi
  simp [hi, show i < 64 by omega]

/-- A cookie is the digest times 16 plus the bin (R141): the two fields do not overlap. -/
theorem packCookie_toNat (d e : Word) :
    (packCookie d e).toNat = 16 * d.toNat + e.toNat % 16 := by
  have hd := d.isLt
  have hb := (binOf e).isLt
  have hs : (d.setWidth 64 <<< 4).toNat = 2 ^ 4 * d.toNat := by
    rw [BitVec.toNat_shiftLeft, BitVec.toNat_setWidth, Nat.shiftLeft_eq]
    omega
  rw [packCookie, BitVec.toNat_or, hs, BitVec.toNat_setWidth,
    Nat.mod_eq_of_lt (show (binOf e).toNat < 2 ^ 64 by omega), ← Nat.two_pow_add_eq_or_of_lt hb,
    binOf_toNat]

/-- Equal bins: two cookies are equal exactly where the digests are. -/
theorem packCookie_inj {d d' e e' : Word} (h : binOf e = binOf e') :
    packCookie d e = packCookie d' e' ↔ d = d' := by
  have hb := congrArg BitVec.toNat h
  rw [binOf_toNat, binOf_toNat] at hb
  rw [← BitVec.toNat_inj, packCookie_toNat, packCookie_toNat, ← BitVec.toNat_inj]
  omega

/-- The bin of a reconstructed epoch is the bin asked for (R96). -/
theorem binOf_reconstruct (bin : BitVec 4) (t : Word) : binOf (reconstruct bin t) = bin := by
  apply BitVec.eq_of_toNat_eq
  have hb := bin.isLt
  rw [binOf_toNat, reconstruct_toNat]
  split <;> omega

end Sys2Proof.Machine
end

