-- ==== Sys2Proof/Laws/State.lean ====
section
/-! SUPPORT. The fields of every named update of the state: one lemma per field per update. -/

namespace Sys2Proof.Machine

section modifyPort
variable (p : Nat) (f : Port → Port) (s : State)
@[simp] theorem modifyPort_config : (modifyPort p f s).config = s.config := rfl
@[simp] theorem modifyPort_key : (modifyPort p f s).key = s.key := rfl
@[simp] theorem modifyPort_t : (modifyPort p f s).t = s.t := rfl
@[simp] theorem modifyPort_ports : (modifyPort p f s).ports = s.ports.modify p f := rfl
@[simp] theorem modifyPort_cur : (modifyPort p f s).cur = s.cur := rfl
@[simp] theorem modifyPort_ent : (modifyPort p f s).ent = s.ent := rfl
@[simp] theorem modifyPort_entTake : (modifyPort p f s).entTake = s.entTake := rfl
@[simp] theorem modifyPort_agenda : (modifyPort p f s).agenda = s.agenda := rfl
end modifyPort

section answered
variable (a : Response) (q : Port)
@[simp] theorem answered_req : (answered a q).req = none := rfl
@[simp] theorem answered_rsp : (answered a q).rsp = some a := rfl
@[simp] theorem answered_x : (answered a q).x = q.x := rfl
end answered

section respond
variable (st : Status) (d : DWord) (s : State)
@[simp] theorem respond_config : (respond st d s).config = s.config := rfl
@[simp] theorem respond_key : (respond st d s).key = s.key := rfl
@[simp] theorem respond_t : (respond st d s).t = s.t := rfl
@[simp] theorem respond_ports :
    (respond st d s).ports = s.ports.modify s.cur (answered { status := st, data := d }) := rfl
@[simp] theorem respond_cur : (respond st d s).cur = s.cur := rfl
@[simp] theorem respond_ent : (respond st d s).ent = s.ent := rfl
@[simp] theorem respond_entTake : (respond st d s).entTake = s.entTake := rfl
@[simp] theorem respond_agenda : (respond st d s).agenda = s.agenda := rfl
end respond

section tickCounter
variable (s : State)
@[simp] theorem tickCounter_config : (tickCounter s).config = s.config := rfl
@[simp] theorem tickCounter_key : (tickCounter s).key = s.key := rfl
@[simp] theorem tickCounter_t : (tickCounter s).t = s.t + 1#32 := rfl
@[simp] theorem tickCounter_ports : (tickCounter s).ports = s.ports := rfl
@[simp] theorem tickCounter_cur : (tickCounter s).cur = s.cur := rfl
@[simp] theorem tickCounter_ent : (tickCounter s).ent = s.ent := rfl
@[simp] theorem tickCounter_entTake : (tickCounter s).entTake = s.entTake := rfl
@[simp] theorem tickCounter_agenda : (tickCounter s).agenda = s.agenda := rfl
end tickCounter

section applyReset
variable (s : State)
@[simp] theorem applyReset_config : (applyReset s).config = s.config := rfl
@[simp] theorem applyReset_key : (applyReset s).key = none := rfl
@[simp] theorem applyReset_t : (applyReset s).t = 0#32 := rfl
@[simp] theorem applyReset_ports :
    (applyReset s).ports = List.replicate s.config.nport Port.idle := rfl
@[simp] theorem applyReset_cur : (applyReset s).cur = 0 := rfl
@[simp] theorem applyReset_ent : (applyReset s).ent = s.ent := rfl
@[simp] theorem applyReset_entTake : (applyReset s).entTake = false := rfl
@[simp] theorem applyReset_agenda : (applyReset s).agenda = s.agenda := rfl
end applyReset

section beginMove
variable (rest : List Move) (s : State)
@[simp] theorem beginMove_config : (beginMove rest s).config = s.config := rfl
@[simp] theorem beginMove_key : (beginMove rest s).key = s.key := rfl
@[simp] theorem beginMove_t : (beginMove rest s).t = s.t := rfl
@[simp] theorem beginMove_ports : (beginMove rest s).ports = s.ports := rfl
@[simp] theorem beginMove_cur : (beginMove rest s).cur = s.cur := rfl
@[simp] theorem beginMove_ent : (beginMove rest s).ent = s.ent := rfl
@[simp] theorem beginMove_entTake : (beginMove rest s).entTake = false := rfl
@[simp] theorem beginMove_agenda : (beginMove rest s).agenda = rest := rfl
end beginMove

section withAnswer
variable (a : Response) (s : State)
@[simp] theorem withAnswer_config : (withAnswer a s).config = s.config := rfl
@[simp] theorem withAnswer_key : (withAnswer a s).key = s.key := rfl
@[simp] theorem withAnswer_t : (withAnswer a s).t = s.t := rfl
@[simp] theorem withAnswer_ports : (withAnswer a s).ports = s.ports.modify s.cur (answered a) := rfl
@[simp] theorem withAnswer_cur : (withAnswer a s).cur = s.cur := rfl
@[simp] theorem withAnswer_ent : (withAnswer a s).ent = s.ent := rfl
@[simp] theorem withAnswer_entTake : (withAnswer a s).entTake = s.entTake := rfl
@[simp] theorem withAnswer_agenda : (withAnswer a s).agenda = s.agenda := rfl
end withAnswer

section afterKeyed
variable (k : Words) (d : DWord) (s : State)
@[simp] theorem afterKeyed_config : (afterKeyed k d s).config = s.config := rfl
@[simp] theorem afterKeyed_key : (afterKeyed k d s).key = some k := rfl
@[simp] theorem afterKeyed_t : (afterKeyed k d s).t = s.t := rfl
@[simp] theorem afterKeyed_ports :
    (afterKeyed k d s).ports = s.ports.modify s.cur (answered { status := .ok, data := d }) := rfl
@[simp] theorem afterKeyed_cur : (afterKeyed k d s).cur = s.cur := rfl
@[simp] theorem afterKeyed_ent : (afterKeyed k d s).ent = s.ent := rfl
@[simp] theorem afterKeyed_entTake :
    (afterKeyed k d s).entTake = (s.entTake || s.key.isNone) := rfl
@[simp] theorem afterKeyed_agenda : (afterKeyed k d s).agenda = s.agenda := rfl
end afterKeyed

end Sys2Proof.Machine
end

