-- ==== Sys2Proof/Laws/Ops.lean ====
section
/-! SUPPORT. What each shared operation can do, said once: the key fill, the frame of the key-using
commands, and the outcome of every instruction. -/

namespace Sys2Proof.Machine

/-- The key fill has three cases (R80): the key is there and nothing happens, the entropy port's bytes
become the key, or the command stalls. -/
theorem keyFill_cases (s : State) :
    (∃ k, s.key = some k ∧ keyFill s = some (k, s)) ∨
    (∃ e, s.key = none ∧ s.ent = some e ∧
      keyFill s = some (keyWords s.config.byteOrder e,
        { s with key := some (keyWords s.config.byteOrder e), entTake := true })) ∨
    (s.key = none ∧ s.ent = none ∧ keyFill s = none) := by
  unfold keyFill
  cases hk : s.key with
  | some k => exact .inl ⟨k, rfl, rfl⟩
  | none =>
    cases he : s.ent with
    | some e => exact .inr (.inl ⟨e, rfl, rfl, rfl⟩)
    | none => exact .inr (.inr ⟨rfl, rfl, rfl⟩)

/-- Where a key can be used, the fill gives it and leaves a state that holds it. -/
theorem keyFill_of_usesKey {s : State} {k : Words} (h : UsesKey s k) :
    keyFill s = some (k, { s with key := some k, entTake := s.entTake || s.key.isNone }) := by
  rcases h with hk | ⟨hk, hs, he⟩
  · rcases s with ⟨c, key, t, ports, cur, ent, tk, ag⟩
    cases hk
    simp [keyFill]
  · obtain ⟨e, he'⟩ := Option.isSome_iff_exists.mp hs
    rw [he'] at he
    cases he
    simp [keyFill, hk, he']

/-- Where no key is there and none is offered, the fill stalls (R83). -/
theorem keyFill_of_no_entropy {s : State} (hk : s.key = none) (he : s.ent = none) :
    keyFill s = none := by
  simp [keyFill, hk, he]

/-- Either a key can be used or the key-using commands stall. -/
theorem usesKey_or_stalls (s : State) :
    (∃ k, UsesKey s k) ∨ (s.key = none ∧ s.ent = none) := by
  rcases keyFill_cases s with ⟨k, hk, -⟩ | ⟨e, hk, he, -⟩ | ⟨hk, he, -⟩
  · exact .inl ⟨k, .inl hk⟩
  · exact .inl ⟨keyWords s.config.byteOrder e, .inr ⟨hk, by simp [he], by simp [he]⟩⟩
  · exact .inr ⟨hk, he⟩

/-- The frame of HASH, GEN and VRFY with an address that is too long (R161). -/
theorem keyedCommand_too_long {alen : Nat} {f : Words → State → DWord} {s : State}
    (h : ADDR_MAX < alen) :
    keyedCommand alen f s = .next (withAnswer ⟨.invalidAddressLength, 0⟩ s) := by
  rw [keyedCommand, if_pos h]
  rfl

/-- The frame of HASH, GEN and VRFY where it stalls (R83). -/
theorem keyedCommand_stalls {alen : Nat} {f : Words → State → DWord} {s : State}
    (h : alen ≤ ADDR_MAX) (hk : s.key = none) (he : s.ent = none) :
    keyedCommand alen f s = .next s := by
  rw [keyedCommand, if_neg (by omega), keyFill_of_no_entropy hk he]
  rfl

/-- The frame of HASH, GEN and VRFY where it completes. -/
theorem keyedCommand_completes {alen : Nat} {f : Words → State → DWord} {s : State} {k : Words}
    (h : alen ≤ ADDR_MAX) (hk : UsesKey s k) :
    keyedCommand alen f s =
      .next (afterKeyed k
        (f k { s with key := some k, entTake := s.entTake || s.key.isNone }) s) := by
  rw [keyedCommand, if_neg (by omega), keyFill_of_usesKey hk]
  rfl

/-- KINIT where a key can be used. -/
theorem execKinit_completes {s : State} {k : Words} (hk : UsesKey s k) :
    execKinit s = .next (afterKeyed k 0 s) := by
  rw [execKinit, keyFill_of_usesKey hk]
  rfl

/-- KINIT where no entropy is offered. -/
theorem execKinit_stalls {s : State} (hk : s.key = none) (he : s.ent = none) :
    execKinit s = .next s := by
  rw [execKinit, keyFill_of_no_entropy hk he]
  rfl

/-- A key-using command has one of three outcomes: an error answer, a stall, or an OK answer. -/
theorem keyedCommand_cases (alen : Nat) (f : Words → State → DWord) (s : State) :
    (ADDR_MAX < alen ∧ keyedCommand alen f s = .next (withAnswer ⟨.invalidAddressLength, 0⟩ s)) ∨
    (alen ≤ ADDR_MAX ∧ s.key = none ∧ s.ent = none ∧ keyedCommand alen f s = .next s) ∨
    (alen ≤ ADDR_MAX ∧ ∃ k d, UsesKey s k ∧ keyedCommand alen f s = .next (afterKeyed k d s)) := by
  by_cases h : alen ≤ ADDR_MAX
  · rcases usesKey_or_stalls s with ⟨k, hk⟩ | ⟨hk, he⟩
    · exact .inr (.inr ⟨h, k, _, hk, keyedCommand_completes h hk⟩)
    · exact .inr (.inl ⟨h, hk, he, keyedCommand_stalls h hk he⟩)
  · exact .inl ⟨by omega, keyedCommand_too_long (by omega)⟩

/-- Everything an instruction can do: answer an error or a result on the current port, stall, fill the key
and answer, or (ARX) change the current port's scratch words. -/
theorem exec_cases (i : Instr) (s : State) :
    (lengthOk i = false ∧ exec i s = .next (withAnswer ⟨.invalidAddressLength, 0⟩ s)) ∨
    (usesKeyFill i = true ∧ lengthOk i = true ∧ s.key = none ∧ s.ent = none ∧ exec i s = .next s) ∨
    (usesKeyFill i = true ∧ lengthOk i = true ∧
      ∃ k d, UsesKey s k ∧ exec i s = .next (afterKeyed k d s)) ∨
    (usesKeyFill i = false ∧ isCommand i = true ∧ ∃ d, exec i s = .next (withAnswer ⟨.ok, d⟩ s)) ∨
    (isCommand i = false ∧ ∃ u,
      exec i s = .next (modifyPort s.cur (fun q => { q with x := arxWord u q.x }) s)) := by
  cases i with
  | kinit =>
    rcases usesKey_or_stalls s with ⟨k, hk⟩ | ⟨hk, he⟩
    · exact .inr (.inr (.inl ⟨rfl, rfl, k, 0, hk, execKinit_completes hk⟩))
    · exact .inr (.inl ⟨rfl, rfl, hk, he, execKinit_stalls hk he⟩)
  | now => exact .inr (.inr (.inr (.inl ⟨rfl, rfl, _, rfl⟩)))
  | recon bin => exact .inr (.inr (.inr (.inl ⟨rfl, rfl, _, rfl⟩)))
  | pack d e => exact .inr (.inr (.inr (.inl ⟨rfl, rfl, _, rfl⟩)))
  | unpk c => exact .inr (.inr (.inr (.inl ⟨rfl, rfl, _, rfl⟩)))
  | arx t a b r => exact .inr (.inr (.inr (.inr ⟨rfl, ⟨t, a, b, r⟩, rfl⟩)))
  | hash n a e =>
    rcases keyedCommand_cases n (fun k s' => (mixerHash s'.config k a n e).setWidth 64) s with
      ⟨h, he⟩ | ⟨h, hk, hn, he⟩ | ⟨h, k, d, hk, he⟩
    · exact .inl ⟨by simp [lengthOk]; omega, he⟩
    · exact .inr (.inl ⟨rfl, by simpa [lengthOk] using h, hk, hn, he⟩)
    · exact .inr (.inr (.inl ⟨rfl, by simpa [lengthOk] using h, k, d, hk, he⟩))
  | gen n a =>
    rcases keyedCommand_cases n (fun k s' => cookieFor s'.config k a n (epochNow s'.t)) s with
      ⟨h, he⟩ | ⟨h, hk, hn, he⟩ | ⟨h, k, d, hk, he⟩
    · exact .inl ⟨by simp [lengthOk]; omega, he⟩
    · exact .inr (.inl ⟨rfl, by simpa [lengthOk] using h, hk, hn, he⟩)
    · exact .inr (.inr (.inl ⟨rfl, by simpa [lengthOk] using h, k, d, hk, he⟩))
  | vrfy n a c =>
    rcases keyedCommand_cases n
      (fun k s' => (BitVec.ofBool (verdict s'.config k a n c s'.t)).setWidth 64) s with
      ⟨h, he⟩ | ⟨h, hk, hn, he⟩ | ⟨h, k, d, hk, he⟩
    · exact .inl ⟨by simp [lengthOk]; omega, he⟩
    · exact .inr (.inl ⟨rfl, by simpa [lengthOk] using h, hk, hn, he⟩)
    · exact .inr (.inr (.inl ⟨rfl, by simpa [lengthOk] using h, k, d, hk, he⟩))

/-- What executing an instruction does to everything but the ports: nothing, or the key fill. -/
theorem exec_effect {i : Instr} {s t : State} (h : exec i s = .next t) :
    t.config = s.config ∧ t.t = s.t ∧ t.ent = s.ent ∧ t.agenda = s.agenda ∧ t.cur = s.cur ∧
    t.ports.length = s.ports.length ∧
    ((t.key = s.key ∧ t.entTake = s.entTake) ∨
      ∃ e, s.key = none ∧ s.ent = some e ∧ usesKeyFill i = true ∧ lengthOk i = true ∧
        t.key = some (keyWords s.config.byteOrder e) ∧ t.entTake = true) := by
  rcases exec_cases i s with ⟨-, h'⟩ | ⟨-, -, -, -, h'⟩ | ⟨hu, hl, k, d, hk, h'⟩ |
      ⟨-, -, d, h'⟩ | ⟨-, u, h'⟩ <;> rw [h'] at h <;> cases h
  · exact ⟨rfl, rfl, rfl, rfl, rfl, by simp, .inl ⟨rfl, rfl⟩⟩
  · exact ⟨rfl, rfl, rfl, rfl, rfl, rfl, .inl ⟨rfl, rfl⟩⟩
  · refine ⟨rfl, rfl, rfl, rfl, rfl, by simp, ?_⟩
    rcases hk with hk | ⟨hk, hs, hm⟩
    · exact .inl ⟨hk.symm, by simp [hk]⟩
    · obtain ⟨e, he⟩ := Option.isSome_iff_exists.mp hs
      rw [he] at hm
      cases hm
      exact .inr ⟨e, hk, he, hu, hl, rfl, by simp [hk]⟩
  · exact ⟨rfl, rfl, rfl, rfl, rfl, by simp, .inl ⟨rfl, rfl⟩⟩
  · exact ⟨rfl, rfl, rfl, rfl, rfl, by simp, .inl ⟨rfl, rfl⟩⟩

end Sys2Proof.Machine
end

