-- ==== Sys2Proof/Laws/PerInstr.lean ====
section
/-! SUPPORT. For every instruction: the image the encoder gives it matches its row of
spec/opcode_table.json (match and mask over `W0`, spec/30_encoding.md R71; every word is an ARX, R72). -/

namespace Sys2Proof.Laws.MatchesTableRow

/-- The number the table matches of an image: `W0` of a request, the word itself of a micro-operation. -/
def tableBits : Image → Nat
  | .request r => (r.extractLsb' 0 32).toNat
  | .uop w => w.toNat

/-- The table's mask of the instruction's row. -/
def rowMask : Instr → Nat
  | .arx _ _ _ _ => 0x00000
  | _ => 0xFFFF00FF

/-- The table's match of the instruction's row. -/
def rowMatch : Instr → Nat
  | .kinit => 0x00000000
  | .now => 0x00000001
  | .recon _ => 0x00000002
  | .hash _ _ _ => 0x00000003
  | .pack _ _ => 0x00000004
  | .unpk _ => 0x00000005
  | .gen _ _ => 0x00000006
  | .vrfy _ _ _ => 0x00000007
  | .arx _ _ _ _ => 0x00000

/-- The encoding of the instruction matches its row. -/
def Statement (i : Instr) : Prop := tableBits (encode i) &&& rowMask i = rowMatch i

/-- `W0` of a request packet, masked: only `op` is left (R71). -/
theorem masked_requestPacket (op : BitVec 4) (alen : BitVec 8) (addr : AddrField) (arg : DWord) :
    tableBits (.request (requestPacket op alen addr arg)) &&& 0xFFFF00FF = op.toNat := by
  have h : (requestPacket op alen addr arg).extractLsb' 0 32 &&& 0xFFFF00FF#32 = op.setWidth 32 := by
    have hm : ∀ m < 32, (0xFFFF00FF#32).getLsbD m = decide (m < 8 ∨ 16 ≤ m) := by decide
    ext i hi
    have hmi := hm i hi
    rw [BitVec.getLsbD_eq_getElem hi] at hmi
    rw [BitVec.getElem_and, BitVec.getElem_extractLsb', requestPacket_bit, BitVec.getElem_setWidth,
      hmi, Nat.zero_add]
    have h160 : ¬ 160 ≤ i := by omega
    have h32 : ¬ 32 ≤ i := by omega
    have h224 : i < 224 := by omega
    by_cases h8 : i < 8
    · have h8' : ¬ 8 ≤ i := by omega
      simp [h160, h32, h224, h8, h8']
    · have hop : op.getLsbD i = false := BitVec.getLsbD_of_ge _ _ (by omega)
      by_cases h16 : i < 16
      · simp [h8, hop, show ¬ 16 ≤ i by omega]
      · simp [h160, h32, hop, BitVec.getLsbD_of_ge alen (i - 8) (by omega)]
  have h2 := congrArg BitVec.toNat h
  have hop := op.isLt
  rw [BitVec.toNat_and, BitVec.toNat_setWidth, Nat.mod_eq_of_lt (by omega)] at h2
  exact h2

theorem kinit : Statement .kinit := masked_requestPacket 0 0 0 0
theorem now : Statement .now := masked_requestPacket 1 0 0 0
theorem recon (bin : BitVec 4) : Statement (.recon bin) := masked_requestPacket 2 0 0 _
theorem hash (alen : Nat) (addr : AddrField) (epoch : Word) : Statement (.hash alen addr epoch) :=
  masked_requestPacket 3 _ addr _
theorem pack (digest epoch : Word) : Statement (.pack digest epoch) := masked_requestPacket 4 0 0 _
theorem unpk (cookie : DWord) : Statement (.unpk cookie) := masked_requestPacket 5 0 0 cookie
theorem gen (alen : Nat) (addr : AddrField) : Statement (.gen alen addr) :=
  masked_requestPacket 6 _ addr 0
theorem vrfy (alen : Nat) (addr : AddrField) (cookie : DWord) : Statement (.vrfy alen addr cookie) :=
  masked_requestPacket 7 _ addr cookie
theorem arx (t a b : Fin 16) (r : Fin 32) : Statement (.arx t a b r) :=
  Nat.and_zero (tableBits (encode (.arx t a b r)))

end Sys2Proof.Laws.MatchesTableRow
end

