-- ==== Sys2Proof/Laws/Step.lean ====
section
/-! SUPPORT. What one step can do, said once: who moves, and what a port's step or a presented request can
change. -/

namespace Sys2Proof.Machine

/-- With an empty agenda the tick agent moves. -/
theorem step_nil {s : State} (h : s.agenda = []) :
    step s = .next (tickCounter (beginMove [] s)) := by
  simp [step, nextMove, h, runMove]

/-- With a move at the head of the agenda, that move is made. -/
theorem step_cons {s : State} {m : Move} {rest : List Move} (h : s.agenda = m :: rest) :
    step s = runMove m (beginMove rest s) := by
  simp [step, nextMove, h]

/-- Executing a packet is executing the instruction it decodes to, or raising IllegalCommand (R163). -/
theorem executePacket_cases (r : Packet) (s : State) :
    (∃ i, decodeRequest r = .ok i ∧ executePacket r s = exec i s) ∨
    (∃ e, decodeRequest r = .error e ∧
      executePacket r s = .next (withAnswer ⟨.illegalCommand, 0⟩ s)) := by
  unfold executePacket
  cases h : decodeRequest r with
  | ok i => exact .inl ⟨i, rfl, rfl⟩
  | error e => exact .inr ⟨e, rfl, rfl⟩

/-- What a request packet decodes to is a command, never the micro-operation. -/
theorem isCommand_of_decodeRequest {r : Packet} {i : Instr} (h : decodeRequest r = .ok i) :
    isCommand i = true := by
  unfold decodeRequest at h
  split at h
  · cases h
  split at h
  · cases h
  split at h <;> cases h <;> rfl

/-- What a port's step can do, if it gives a next state: nothing in flight, the decoded command, or
IllegalCommand. -/
theorem servePort_cases {p : Nat} {s t : State} (h : servePort p s = .next t) :
    (∃ q, s.ports[p]? = some q ∧ q.req = none ∧ t = s) ∨
    (∃ q r i, s.ports[p]? = some q ∧ q.req = some r ∧ decodeRequest r = .ok i ∧
      exec i { s with cur := p } = .next t) ∨
    (∃ q r e, s.ports[p]? = some q ∧ q.req = some r ∧ decodeRequest r = .error e ∧
      t = withAnswer ⟨.illegalCommand, 0⟩ { s with cur := p }) := by
  unfold servePort at h
  cases hp : s.ports[p]? with
  | none => rw [hp] at h; cases h
  | some q =>
    rw [hp] at h
    cases hr : q.req with
    | none => simp only [hr] at h; cases h; exact .inl ⟨q, rfl, hr, rfl⟩
    | some r =>
      simp only [hr] at h
      rcases executePacket_cases r { s with cur := p } with ⟨i, hi, he⟩ | ⟨e, hi, he⟩
      · exact .inr (.inl ⟨q, r, i, rfl, hr, hi, he ▸ h⟩)
      · rw [he] at h; cases h; exact .inr (.inr ⟨q, r, e, rfl, hr, hi, rfl⟩)

/-- What presenting a request can do: a free port takes it, a busy one does not. -/
theorem presentRequest_cases {p : Nat} {r : Packet} {s t : State}
    (h : presentRequest p r s = .next t) :
    (∃ q, s.ports[p]? = some q ∧ q.req = none ∧
      t = modifyPort p (fun q => { q with req := some r, rsp := none }) s) ∨
    (∃ q, s.ports[p]? = some q ∧ q.req.isSome ∧ t = s) := by
  unfold presentRequest at h
  cases hp : s.ports[p]? with
  | none => rw [hp] at h; cases h
  | some q =>
    rw [hp] at h
    cases hr : q.req with
    | none => simp only [hr] at h; cases h; exact .inl ⟨q, rfl, hr, rfl⟩
    | some r' => simp only [hr] at h; cases h; exact .inr ⟨q, rfl, by simp [hr], rfl⟩

/-- What a micro-operation move can do: change the scratch words of its port. -/
theorem runMicroOp_cases {p : Nat} {w : UopWord} {s t : State} (h : runMicroOp p w s = .next t) :
    ∃ q, s.ports[p]? = some q ∧
      t = modifyPort p
        (fun q => { q with x := arxWord ⟨uopT w, uopA w, uopB w, uopR w⟩ q.x })
        { s with cur := p } := by
  unfold runMicroOp at h
  cases hp : s.ports[p]? with
  | none => rw [hp] at h; cases h
  | some q => rw [hp] at h; cases h; exact ⟨q, rfl, rfl⟩

/-- What a move other than the tick's and the reset's does to everything but the ports. -/
structure QuietMove (m : Move) (s t : State) : Prop where
  config : t.config = s.config
  counter : t.t = s.t
  agenda : t.agenda = s.agenda
  ent : t.ent = s.ent ∨ m = .entropy t.ent
  key : (t.key = s.key ∧ t.entTake = s.entTake) ∨
    ∃ e, s.key = none ∧ s.ent = some e ∧ t.ent = s.ent ∧
      t.key = some (keyWords s.config.byteOrder e) ∧ t.entTake = true

/-- Executing an instruction on some port is quiet. -/
theorem quietMove_of_exec {m : Move} {i : Instr} {s t : State} {p : Nat}
    (h : exec i { s with cur := p } = .next t) : QuietMove m s t := by
  obtain ⟨h1, h2, h3, h4, -, -, h5⟩ := exec_effect h
  refine ⟨h1, h2, h4, .inl h3, ?_⟩
  rcases h5 with h5 | ⟨e, hk, he, -, -, hk', ht⟩
  · exact .inl h5
  · exact .inr ⟨e, hk, he, h3, hk', ht⟩

/-- What a move can do to everything but the ports: the tick agent advances the counter, the reset agent
resets, and every other move is quiet. -/
theorem runMove_cases {m : Move} {s t : State} (h : runMove m s = .next t) :
    (m = .tick ∧ t = tickCounter s) ∨ (m = .reset ∧ t = applyReset s) ∨
    (m ≠ .tick ∧ m ≠ .reset ∧ QuietMove m s t) := by
  cases m with
  | tick => cases h; exact .inl ⟨rfl, rfl⟩
  | reset => cases h; exact .inr (.inl ⟨rfl, rfl⟩)
  | entropy e =>
    cases h
    exact .inr (.inr ⟨by simp, by simp, rfl, rfl, rfl, .inr rfl, .inl ⟨rfl, rfl⟩⟩)
  | request p r =>
    refine .inr (.inr ⟨by simp, by simp, ?_⟩)
    rcases presentRequest_cases h with ⟨q, -, -, rfl⟩ | ⟨q, -, -, rfl⟩ <;>
      exact ⟨rfl, rfl, rfl, .inl rfl, .inl ⟨rfl, rfl⟩⟩
  | serve p =>
    refine .inr (.inr ⟨by simp, by simp, ?_⟩)
    rcases servePort_cases h with ⟨q, -, -, rfl⟩ | ⟨q, r, i, -, -, -, he⟩ | ⟨q, r, e, -, -, -, rfl⟩
    · exact ⟨rfl, rfl, rfl, .inl rfl, .inl ⟨rfl, rfl⟩⟩
    · exact quietMove_of_exec he
    · exact ⟨rfl, rfl, rfl, .inl rfl, .inl ⟨rfl, rfl⟩⟩
  | microOp p w =>
    obtain ⟨q, -, rfl⟩ := runMicroOp_cases h
    exact .inr (.inr ⟨by simp, by simp, rfl, rfl, rfl, .inl rfl, .inl ⟨rfl, rfl⟩⟩)

/-- What the host's `run` does in one step more. -/
theorem core_run_succ (M : Host.Core) (n : Nat) (s : M.State) :
    M.run (n + 1) s =
      match M.step s with
      | .next s' => M.run n s'
      | .fault r => .fault r
      | .refused r => .refused r := rfl

/-- No step changes nothing. -/
theorem runSteps_zero (s t : State) : runSteps 0 s = .next t ↔ s = t := by
  constructor
  · intro h; cases h; rfl
  · rintro rfl; rfl

/-- `n + 1` steps are a step and then `n` steps. -/
theorem runSteps_succ (n : Nat) (s t : State) :
    runSteps (n + 1) s = .next t ↔ ∃ u, step s = .next u ∧ runSteps n u = .next t := by
  have h := core_run_succ core n s
  cases hs : step s with
  | next u => rw [show core.step s = step s from rfl, hs] at h; simp [runSteps, h]
  | fault u => rw [show core.step s = step s from rfl, hs] at h; simp [runSteps, h]
  | refused u => rw [show core.step s = step s from rfl, hs] at h; simp [runSteps, h]

end Sys2Proof.Machine
end

