-- ==== Sys2Proof/Laws/Words.lean ====
section
/-! SUPPORT. Byte lanes, the rotation, and the words an ARX operation or an overlay leaves alone. -/

namespace Sys2Proof.Machine

/-- The spec's rotation (R10) is the library's. -/
theorem rotl32_eq_rotateLeft (v : Word) (r : Fin 32) : rotl32 v r.val = v.rotateLeft r.val := by
  have h := r.isLt
  unfold rotl32
  split
  · rename_i h0
    rw [h0]
    ext i hi
    simp [BitVec.getElem_rotateLeft]
  · rw [BitVec.rotateLeft_def, Nat.mod_eq_of_lt h]

@[simp] theorem rotl32_zero (r : Nat) : rotl32 0#32 r = 0#32 := by
  simp [rotl32]

/-- The bits of the lane mask. -/
theorem laneMask_getElem {m : Nat} (h : m < 32) : (255#32)[m] = decide (m < 8) := by
  have all : ∀ m < 32, (255#32).getLsbD m = decide (m < 8) := by decide
  rw [← BitVec.getLsbD_eq_getElem h]
  exact all m h

/-- A lane that was written reads as what was written. -/
theorem laneOf_setLane_same (w : Word) (lo : Nat) (b : Byte) (h : lo ≤ 24) :
    laneOf (setLane w lo b) lo = b := by
  unfold laneOf setLane
  ext i hi
  simp only [BitVec.getElem_extractLsb', BitVec.getLsbD_or, BitVec.getLsbD_and, BitVec.getLsbD_not,
    BitVec.getLsbD_shiftLeft, BitVec.getLsbD_setWidth]
  have h1 : (255#32).getLsbD i = true := by
    have : i < 8 := hi
    interval_cases i <;> rfl
  have h2 : lo + i < 32 := by omega
  have h3 : lo + i - lo = i := by omega
  simp [h1, h2, h3, show ¬ (lo + i < lo) by omega, show i < 32 by omega, BitVec.getLsbD_eq_getElem hi]

/-- A lane that does not meet the written one reads as before. -/
theorem laneOf_setLane_other (w : Word) (lo lo' : Nat) (b : Byte)
    (h : lo' + 8 ≤ lo ∨ lo + 8 ≤ lo') (h24 : lo' ≤ 24) :
    laneOf (setLane w lo b) lo' = laneOf w lo' := by
  unfold laneOf setLane
  ext i hi
  simp only [BitVec.getElem_extractLsb', BitVec.getLsbD_or, BitVec.getLsbD_and, BitVec.getLsbD_not,
    BitVec.getLsbD_shiftLeft, BitVec.getLsbD_setWidth]
  have h2 : lo' + i < 32 := by omega
  rcases h with h | h
  · simp [h2, show lo' + i < lo by omega]
  · have h1 : (255#32).getLsbD (lo' + i - lo) = false := by
      generalize hm : lo' + i - lo = m
      have h8 : 8 ≤ m := by omega
      have h32 : m < 32 := by omega
      interval_cases m <;> rfl
    have hb : b.getLsbD (lo' + i - lo) = false := BitVec.getLsbD_of_ge _ _ (by omega)
    simp [h2, h1, hb]

/-- Writing back the byte a lane holds changes nothing. -/
theorem setLane_laneOf (w : Word) (lo : Nat) (h : lo ≤ 24) : setLane w lo (laneOf w lo) = w := by
  unfold laneOf setLane
  ext i hi
  simp only [BitVec.getElem_or, BitVec.getElem_and, BitVec.getElem_not, BitVec.getElem_shiftLeft,
    BitVec.getElem_setWidth, BitVec.getLsbD_extractLsb']
  by_cases h1 : i < lo
  · simp [h1]
  · have h2 : lo + (i - lo) = i := by omega
    by_cases h3 : i - lo < 8
    · have h4 := laneMask_getElem (m := i - lo) (by omega)
      simp [h1, h2, h3, h4, BitVec.getLsbD_eq_getElem hi]
    · have h4 := laneMask_getElem (m := i - lo) (by omega)
      simp [h1, h3, h4]

/-- The four lanes of a word made of four bytes. -/
theorem laneOf_bytesToWord (b3 b2 b1 b0 : Byte) :
    laneOf (bytesToWord b3 b2 b1 b0) 0 = b0 ∧ laneOf (bytesToWord b3 b2 b1 b0) 8 = b1 ∧
    laneOf (bytesToWord b3 b2 b1 b0) 16 = b2 ∧ laneOf (bytesToWord b3 b2 b1 b0) 24 = b3 := by
  unfold laneOf bytesToWord
  refine ⟨?_, ?_, ?_, ?_⟩ <;> ext i hi <;> simp [BitVec.getLsbD_eq_getElem hi]
  · simp [show i < 24 by omega, show i < 16 by omega, show i < 8 by omega, show i < 32 by omega]
  · simp [show 8 + i < 24 by omega, show 8 + i < 16 by omega, show 8 + i < 32 by omega,
      show i < 32 by omega]
  · simp [show 16 + i < 24 by omega, show 16 + i < 32 by omega, show i < 32 by omega,
      show 16 + i - 8 = 8 + i by omega, BitVec.getLsbD_of_ge b0 (16 + i) (by omega)]
  · simp [show 24 + i < 32 by omega, show i < 32 by omega, show 24 + i - 16 = 8 + i by omega,
      show 24 + i - 8 = 16 + i by omega, BitVec.getLsbD_of_ge b0 (24 + i) (by omega),
      BitVec.getLsbD_of_ge b1 (16 + i) (by omega)]

/-- Every lane lies inside its word. -/
theorem laneLo_le (o : ByteOrder) (j : Nat) : laneLo o j ≤ 24 := by
  cases o <;> (simp only [laneLo]; omega)

/-- Two lanes of one word do not meet. -/
theorem laneLo_apart (o : ByteOrder) {i j : Nat} (h : i % 4 ≠ j % 4) :
    laneLo o i + 8 ≤ laneLo o j ∨ laneLo o j + 8 ≤ laneLo o i := by
  cases o <;> (simp only [laneLo]; omega)

/-- The address word of byte `j` (R45). -/
theorem addrWord_val {j : Nat} (h : j < 16) : (addrWord j).val = 4 + j / 4 := by
  simp only [addrWord, ADDR_BASE, Fin.ofNat]
  omega

/-- ARX writes its target. -/
theorem arxWord_target (u : MicroOp) (x : Words) :
    (arxWord u x)[u.t] = x[u.t] ^^^ rotl32 (x[u.a] + x[u.b]) u.r.val := by
  simp [arxWord]

/-- ARX leaves every other word alone. -/
theorem arxWord_other (u : MicroOp) (x : Words) {i : Fin 16} (h : i ≠ u.t) :
    (arxWord u x)[i] = x[i] := by
  simp only [arxWord, Fin.getElem_fin]
  rw [Vector.getElem_set_ne]
  exact fun hc => h (Fin.ext hc.symm)

/-- The overlay leaves every word outside 4..7 alone. -/
theorem overlayBytes_outside (o : ByteOrder) (addr : AddrField) (x : Words) {n : Nat} (hn : n ≤ 16)
    {i : Fin 16} (hi : i.val < 4 ∨ 8 ≤ i.val) : (overlayBytes o addr n x)[i] = x[i] := by
  induction n with
  | zero => rfl
  | succ n ih =>
    have hw := addrWord_val (j := n) (by omega)
    rw [overlayBytes]
    simp only [Fin.getElem_fin] at *
    rw [Vector.getElem_set_ne _ _ (by omega)]
    exact ih (by omega)

/-- The overlay of equal bytes is equal. -/
theorem overlayBytes_congr (o : ByteOrder) {addr addr' : AddrField} (x : Words) {n : Nat}
    (h : ∀ j < n, addrByte addr j = addrByte addr' j) :
    overlayBytes o addr n x = overlayBytes o addr' n x := by
  induction n with
  | zero => rfl
  | succ n ih =>
    rw [overlayBytes, overlayBytes, ih (fun j hj => h j (by omega)), h n (by omega)]

end Sys2Proof.Machine
end

