-- ==== Sys2Proof/Tests/Slice0.lean ====
section
/-! SUPPORT. Small tests, each on fixed values. Expected results come from spec/95_test_vectors.md (its row
is named) or from words written out from spec/30_encoding.md and spec/42_mixer.md R116. The second half
shows, for each obligation with hypotheses, values that meet all of them together. -/

namespace Sys2Proof.Machine.Tests

open Sys2Proof Sys2Proof.Machine

/-! ### Small states -/

/-- The entropy of key A (K1): byte `j` is `j`. -/
def entA : EntBytes := Vector.ofFn fun j : Fin 64 => BitVec.ofNat 8 j.val

/-- Key A under `LE`. -/
def keyA : Words := keyWords .le entA

/-- After reset, with key A filled and the counter at `t`. -/
def keyedAt (t : Word) : State := { State.reset with key := some keyA, t := t }

/-- After reset, without a key, the entropy port offering key A's bytes. -/
def offered : State := { State.reset with ent := some entA }

/-- `s` with the request `r` in flight on port 0 and that port's turn next. -/
def serving (r : Packet) (s : State) : State :=
  { s with
    agenda := [.serve 0]
    ports := s.ports.modify 0 (fun q => { q with req := some r }) }

/-- Port 0 of such a state. -/
def pendingPort (r : Packet) : Port := { Port.idle with req := some r }

/-- Two ports, key A. -/
def twoPorts : State := { State.resetWith { Config.default with nport := 2 } with key := some keyA }

/-- What port `p` presents after an outcome. -/
def answerOf (p : Nat) : Host.Outcome State Fault Refusal → Option Response
  | .next s => presented s p
  | _ => none

/-- Did the machine stop with this fault? -/
def faults (f : Fault) : Host.Outcome State Fault Refusal → Bool
  | .fault g => g == f
  | _ => false

/-- The state an outcome leaves, or `s` if it leaves none. -/
def stateOr (s : State) : Host.Outcome State Fault Refusal → State
  | .next t => t
  | _ => s

/-! ### WellFormed: each check refuses -/

theorem test_wf_hash_refuses_256 : (Instr.hash 256 0 0).wellFormed = false := by decide
theorem test_wf_gen_refuses_256 : (Instr.gen 256 0).wellFormed = false := by decide
theorem test_wf_vrfy_refuses_256 : (Instr.vrfy 256 0 0).wellFormed = false := by decide
theorem test_wf_hash_accepts_255 : (Instr.hash 255 0 0).wellFormed = true := by decide

/-! ### Decode: words written out from the encoding (R61, R66, R67, R71, R72, R116) -/

/-- `W0` = op 0. -/
theorem test_decode_kinit : decodeTableWord 32 0x00000000 = some .kinit := by decide
/-- E11: NOW with `alen` = 200. -/
theorem test_decode_now : decodeTableWord 32 0x0000C801 = some .now := by decide
/-- op 2, `W5` = 0xF9: the bin is the low 4 bits. -/
theorem test_decode_recon :
    decodeTableWord 224 0x00000000_000000F9_00000000_00000000_00000000_00000000_00000002 =
      some (.recon 9) := by decide
/-- op 3, `alen` 4, `W1` the address, `W5` the epoch, `W6` ignored. -/
theorem test_decode_hash :
    decodeTableWord 224 0xAAAAAAAA_00012345_00000000_00000000_00000000_0100007F_00000403 =
      some (.hash 4 0x0100007F 0x00012345) := by decide
/-- op 4, `W5` the digest, `W6` the epoch. -/
theorem test_decode_pack :
    decodeTableWord 224 0x0000001F_12345678_00000000_00000000_00000000_00000000_00000004 =
      some (.pack 0x12345678 0x1F) := by decide
/-- op 5, `W6` and `W5` the cookie. -/
theorem test_decode_unpk :
    decodeTableWord 224 0x80000000_00000007_00000000_00000000_00000000_00000000_00000005 =
      some (.unpk 0x8000000000000007) := by decide
/-- op 6, `alen` 16, `W4` holds address bytes 12 to 15. -/
theorem test_decode_gen :
    decodeTableWord 224 0x00000000_00000000_2F2E2D2C_2B2A2928_27262524_23222120_00001006 =
      some (.gen 16 0x2F2E2D2C2B2A29282726252423222120) := by decide
/-- op 7, `alen` 4, address 127.0.0.1, cookie of W1. -/
theorem test_decode_vrfy :
    decodeTableWord 224 0x00000002_EF746EE4_00000000_00000000_00000000_0100007F_00000407 =
      some (.vrfy 4 0x0100007F 0x2EF746EE4) := by decide
/-- ROM word 0 of R116. -/
theorem test_decode_arx_first : decodeTableWord 24 0x07C04 = some (.arx 4 0 12 7) := by decide
/-- ROM word 31 of R116. -/
theorem test_decode_arx_last : decodeTableWord 24 0x12DEF = some (.arx 15 14 13 18) := by decide

/-- The words of R116 are the encodings of the default schedule (first eight of the column half, last eight
of the row half). -/
theorem test_rom_words :
    (defaultSchedule.toList.take 8).map (fun u => uopWord u.t u.a u.b u.r) =
      [0x07C04, 0x09048, 0x0D48C, 0x128C0, 0x07159, 0x0959D, 0x0D9D1, 0x12D15] ∧
    (defaultSchedule.toList.drop 24).map (fun u => uopWord u.t u.a u.b u.r) =
      [0x079AB, 0x09AB8, 0x0DB89, 0x1289A, 0x07EFC, 0x09FCD, 0x0DCDE, 0x12DEF] := by decide

/-- E1 to E5: what is no command, and why. -/
theorem test_decode_rejects :
    decodeRequest 0x00000008 = .error (.reservedOpcode 8) ∧
    decodeRequest 0x0000000F = .error (.reservedOpcode 15) ∧
    decodeRequest 0x00000011 = .error .reservedField0 ∧
    decodeRequest 0x00010001 = .error .reservedField1 ∧
    decodeRequest 0x80001106 = .error .reservedField1 := by decide

/-- R73: the packet that VRFY assembles to. -/
theorem test_encode_vrfy : encode (.vrfy 4 0x0100007F 0x2EF746EE4) =
    .request 0x00000002_EF746EE4_00000000_00000000_00000000_0100007F_00000407 := by decide

/-! ### Meanings -/

/-- K1. -/
theorem test_key_le : keyA[0] = 0x03020100 ∧ keyA[4] = 0x13121110 ∧ keyA[15] = 0x3F3E3D3C := by decide
/-- K2. -/
theorem test_key_be : (keyWords .be entA)[0] = 0x00010203 ∧ (keyWords .be entA)[15] = 0x3C3D3E3F := by
  decide

theorem test_kinit_fills :
    (stateOr offered (exec .kinit offered)).key = some keyA ∧
    answerOf 0 (exec .kinit offered) = some ⟨.ok, 0⟩ := by decide
theorem test_kinit_stalls : answerOf 0 (exec .kinit State.reset) = none := by decide

/-- N3. -/
theorem test_now_last_of_bin : answerOf 0 (exec .now (keyedAt 249)) = some ⟨.ok, 0⟩ := by decide
/-- N15. -/
theorem test_now_unsigned :
    answerOf 0 (exec .now (keyedAt 0xFFFFFFD2)) = some ⟨.ok, 0x010624DD⟩ := by decide

/-- C2. -/
theorem test_recon_startup :
    answerOf 0 (exec (.recon 1) (keyedAt 0)) = some ⟨.ok, 0xFFFFFFF1⟩ := by decide
/-- C14. -/
theorem test_recon_borrow :
    answerOf 0 (exec (.recon 1) (keyedAt 8123)) = some ⟨.ok, 0x11⟩ := by decide

/-- I6. -/
theorem test_mix_init_le :
    (mixInit Config.default keyA 0x060504030201 6 7)[4] = 0x04030201 ∧
    (mixInit Config.default keyA 0x060504030201 6 7)[5] = 0x17160605 ∧
    (mixInit Config.default keyA 0x060504030201 6 7)[6] = 0x1B1A191F ∧
    (mixInit Config.default keyA 0x060504030201 6 7)[10] = 0x2B2A292F := by decide
/-- I7. -/
theorem test_mix_init_be :
    (mixInit { Config.default with byteOrder := .be } (keyWords .be entA) 0x060504030201 6 7)[5] =
      0x05061617 ∧
    (mixInit { Config.default with byteOrder := .be } (keyWords .be entA) 0x060504030201 6 7)[6] =
      0x18191A22 := by decide

/-- H2, through a key fill. -/
theorem test_hash_le :
    answerOf 0 (exec (.hash 4 0x0100007F 0) offered) = some ⟨.ok, 0x3999A50B⟩ := by decide +kernel
/-- H19. -/
theorem test_hash_be :
    mixerHash { Config.default with byteOrder := .be } (keyWords .be entA) 0x060504030201 6 7 =
      0xAC09CA3A := by decide +kernel

/-- P2. -/
theorem test_pack_low_bits :
    answerOf 0 (exec (.pack 0xFFFFFFFF 0xFFFFFFFF) State.reset) = some ⟨.ok, 0xFFFFFFFFF⟩ := by decide
/-- P3. -/
theorem test_pack_zero_extends :
    answerOf 0 (exec (.pack 0x80000000 0) State.reset) = some ⟨.ok, 0x800000000⟩ := by decide

/-- U4. -/
theorem test_unpk_all_ones :
    answerOf 0 (exec (.unpk 0xFFFFFFFFFFFFFFFF) State.reset) = some ⟨.ok, 15⟩ := by decide
/-- U3. -/
theorem test_unpk_nine :
    answerOf 0 (exec (.unpk 0x0000000123456789) State.reset) = some ⟨.ok, 9⟩ := by decide

/-- W1. -/
theorem test_gen :
    answerOf 0 (exec (.gen 4 0x0100007F) (keyedAt 1000)) = some ⟨.ok, 0x2EF746EE4⟩ := by decide +kernel
/-- E6. -/
theorem test_gen_too_long :
    answerOf 0 (exec (.gen 17 0) State.reset) = some ⟨.invalidAddressLength, 0⟩ := by decide

/-- W4. -/
theorem test_vrfy_accepts :
    answerOf 0 (exec (.vrfy 4 0x0100007F 0x2EF746EE4) (keyedAt 4999)) = some ⟨.ok, 1⟩ := by decide +kernel
/-- W5. -/
theorem test_vrfy_expired :
    answerOf 0 (exec (.vrfy 4 0x0100007F 0x2EF746EE4) (keyedAt 5000)) = some ⟨.ok, 0⟩ := by decide +kernel

/-- X5. -/
theorem test_arx_general :
    (arxWord ⟨4, 0, 12, 7⟩ (((zeroWords.set 4 0xDEADBEEF).set 0 0x12345678).set 12 0x9ABCDEF0))[4] =
      0xA6370AB9 := by decide
/-- X7. -/
theorem test_arx_largest_rotate :
    (arxWord ⟨4, 0, 12, 31⟩ ((zeroWords.set 4 0xA5A5A5A5).set 0 1))[4] = 0x25A5A5A5 := by decide

/-- R64, R65: the response packet of an error. -/
theorem test_response_word : responseWord ⟨.illegalCommand, 0⟩ = 0x2#96 ∧
    responseWord ⟨.ok, 0x2EF746EE4⟩ = 0x2EF746EE400000000#96 := by decide

/-! ### Steps -/

/-- E11 as the first instruction after reset. -/
theorem test_step_now :
    answerOf 0 (step (State.reset.withFetchWord 32 0xC801)) = some ⟨.ok, 0⟩ := by decide
/-- E3. -/
theorem test_step_illegal :
    answerOf 0 (step (State.reset.withFetchWord 32 0x11)) = some ⟨.illegalCommand, 0⟩ := by decide
/-- E15: a legal GEN without entropy stalls, its request still in flight. -/
theorem test_step_stalls :
    stateOr State.reset (step (State.reset.withFetchWord 32 0x0406)) =
      { serving 0x0406 State.reset with agenda := [] } := by decide
/-- ROM word 0 of R116 on cleared scratch words leaves them. -/
theorem test_step_arx :
    stateOr offered (step (State.reset.withFetchWord 24 0x07C04)) = State.reset := by decide
/-- N16: the tick agent wraps the counter. -/
theorem test_step_tick_wraps : (stateOr offered (step (keyedAt 0xFFFFFFFF))).t = 0 := by decide
/-- R180: reset drops the key and the request. -/
theorem test_step_reset :
    stateOr offered (step { serving 0x0406 (keyedAt 9) with agenda := [.reset] }) = State.reset := by decide
/-- R170: there is no port 1 when `NPORT` is 1. -/
theorem test_step_no_such_port :
    faults .noSuchPort (step { State.reset with agenda := [.serve 1] }) = true := by decide

/-! ### Witnesses: the hypotheses of each obligation are met together -/

theorem witness_DecodeOfEncodeIsIdentity :
    (Instr.vrfy 255 0x0100007F 0x2EF746EE4).wellFormed = true ∧ (Instr.hash 0 0 0).wellFormed = true := by
  decide

theorem witness_CommandsAreMatchAndMask :
    ¬ IllegalPacket 0x0000FF07 ∧ IllegalPacket 0x00000008 ∧ (7#4).toNat < 8 ∧
    (0x0000FF07#224).extractLsb' 0 32 &&& 0xFFFF00FF#32 = (7#4).setWidth 32 := by decide

/-- One pair for a command without operands, one for GEN with 4 address bytes. -/
theorem witness_IgnoredFieldsHaveNoEffect :
    SameUsedFields 0xC801 0x0001 ∧
    SameUsedFields 0x0100007F00000406 0xFF000000550100007F00000406 := by
  unfold SameUsedFields; decide

/-- Each disjunct at its boundary: `rsv0` = 1, `rsv1` = 0x8000, `op` = 8. -/
theorem witness_ReservedEncodingsAnswerIllegalCommand :
    IllegalPacket 0x00000011 ∧ IllegalPacket 0x80000001 ∧ IllegalPacket 0x00000008 := by decide

/-- Each clause at the lengths where they meet: an illegal GEN of 17 bytes (E5), a legal one of 17, legal
ones of 16, and PACK, whose length is ignored. -/
theorem witness_ChecksAreMadeInOrder :
    IllegalPacket 0x80001106 ∧
    (¬ IllegalPacket 0x00001106 ∧ TakesAddress 0x00001106 ∧ 16 < (reqAlen 0x00001106).toNat) ∧
    (¬ IllegalPacket 0x00001006 ∧ ¬ (TakesAddress 0x00001006 ∧ 16 < (reqAlen 0x00001006).toNat) ∧
      TakesAddress 0x00001006 ∧ State.reset.key = none ∧ State.reset.ent = none ∧
      UsesKey (keyedAt 0) keyA ∧ UsesKey offered keyA) ∧
    (¬ IllegalPacket 0x00001100 ∧ ¬ TakesAddress 0x00001100 ∧ reqOp 0x00001100 = 0#4) ∧
    (¬ IllegalPacket 0x0000FF04 ∧ ¬ (TakesAddress 0x0000FF04 ∨ reqOp 0x0000FF04 = 0#4)) := by decide

theorem witness_OverlongAddressIsRejected :
    lengthOk (.gen 17 0) = false ∧ lengthOk (.gen 16 0) = true ∧
    ∀ a ∈ presented State.reset State.reset.cur, a.status ≠ .invalidAddressLength := by decide

/-- An illegal request and an overlong one, in flight on port 0 of a machine with a key. -/
theorem witness_ErrorsChangeNothingElse :
    ∀ r ∈ [0x00000011#224, 0x00001107#224],
      (IllegalPacket r ∨ TakesAddress r ∧ 16 < (reqAlen r).toNat) ∧
      ∃ q t, (serving r (keyedAt 7)).ports[(serving r (keyedAt 7)).cur]? = some q ∧
        executePacket r (serving r (keyedAt 7)) = .next t := by
  intro r hr
  rcases List.mem_cons.mp hr with rfl | hr
  · exact ⟨by decide, _, _, rfl, rfl⟩
  · rcases List.mem_cons.mp hr with rfl | hr
    · exact ⟨by decide, _, _, rfl, rfl⟩
    · exact absurd hr (List.not_mem_nil)

theorem witness_KinitFillsTheKeyAndAnswersZero :
    (keyedAt 0).key = some keyA ∧ (offered.key = none ∧ offered.ent = some entA) ∧
    (State.reset.key = none ∧ State.reset.ent = none) := by decide

theorem witness_KeyBytesLandInTheirLanes :
    (0 : Fin 16).val = (3 : Fin 64).val / 4 ∧ (15 : Fin 16).val = (63 : Fin 64).val / 4 := by decide

/-- E15 on port 0. -/
theorem witness_StalledCommandStaysPending :
    ∃ q, (serving 0x0406 State.reset).agenda = .serve 0 :: [] ∧
      (serving 0x0406 State.reset).ports[0]? = some q ∧ q.req = some 0x0406 ∧
      decodeRequest 0x0406 = .ok (.gen 4 0) ∧ usesKeyFill (.gen 4 0) = true ∧
      lengthOk (.gen 4 0) = true ∧ (serving 0x0406 State.reset).key = none ∧
      (serving 0x0406 State.reset).ent = none :=
  ⟨pendingPort 0x0406, by decide⟩

/-- E15 on port 0, and KINIT. -/
theorem witness_StallIsLifted :
    (∃ q, (serving 0x1006 State.reset).ports[0]? = some q ∧ q.req = some 0x1006 ∧
      decodeRequest 0x1006 = .ok (.gen 16 0) ∧ usesKeyFill (.gen 16 0) = true ∧
      lengthOk (.gen 16 0) = true ∧ (serving 0x1006 State.reset).key = none) ∧
    ∃ q, (serving 0 State.reset).ports[0]? = some q ∧ q.req = some 0 ∧
      decodeRequest 0 = .ok .kinit ∧ usesKeyFill .kinit = true ∧
      lengthOk .kinit = true ∧ (serving 0 State.reset).key = none :=
  ⟨⟨pendingPort 0x1006, by decide⟩, pendingPort 0, by decide⟩

/-- A step that executes KINIT with the key there. -/
theorem witness_KeyIsWriteOnce :
    ∃ t, step (serving 0 (keyedAt 0)) = .next t ∧ (serving 0 (keyedAt 0)).key = some keyA ∧
      (serving 0 (keyedAt 0)).agenda.head? ≠ some .reset := ⟨_, rfl, by decide⟩

/-- A step that executes KINIT without a key, entropy there. -/
theorem witness_KeyComesFromTheEntropyPort :
    ∃ t, step (serving 0 offered) = .next t ∧ (serving 0 offered).key = none ∧ t.key = some keyA ∧
      t.entTake = true := ⟨_, rfl, by decide⟩

theorem witness_KeySurvivesEveryRun :
    ∃ t, NoReset (serving 0 (keyedAt 0)).agenda ∧ runSteps 1 (serving 0 (keyedAt 0)) = .next t ∧
      (serving 0 (keyedAt 0)).key = some keyA := ⟨_, by decide, rfl, by decide⟩

/-- A tick, and for the second clause a command. -/
theorem witness_OnlyTheTickMovesTheCounter :
    (∃ rest, ({ keyedAt 5 with agenda := [.tick, .reset] } : State).agenda = .tick :: rest) ∧
    ∃ t, step (serving 1 (keyedAt 5)) = .next t ∧
      (serving 1 (keyedAt 5)).agenda.head? ≠ some .reset ∧
      (serving 1 (keyedAt 5)).agenda.head? ≠ some .tick ∧ (serving 1 (keyedAt 5)).agenda ≠ [] :=
  ⟨⟨_, rfl⟩, _, rfl, by decide⟩

/-- The third clause: an empty agenda. -/
theorem witness_OnlyTheTickMovesTheCounter_empty : State.reset.agenda = [] := by decide

/-- A run of ticks, of any length. -/
theorem runSteps_ticks (n : Nat) (s : State) :
    ∃ t, runSteps n { s with agenda := List.replicate n .tick } = .next t := by
  induction n generalizing s with
  | zero => exact ⟨_, (runSteps_zero _ _).mpr rfl⟩
  | succ n ih =>
    obtain ⟨t, ht⟩ := ih { s with t := s.t + 1#32, entTake := false }
    exact ⟨t, (runSteps_succ _ _ _).mpr ⟨_, step_cons (m := .tick) rfl, ht⟩⟩

theorem ticksIn_replicate (n : Nat) : ticksIn (List.replicate n .tick) = n := by
  simp [ticksIn, isTick, List.countP_replicate]

theorem noReset_replicate (n : Nat) : NoReset (List.replicate n .tick) := by
  intro m hm
  rw [List.eq_of_mem_replicate hm]
  rfl

/-- Two ticks from the last value before the wrap. -/
theorem witness_CounterCountsTheTicks :
    ∃ s t, NoReset [.tick, .tick] ∧ s.agenda = [.tick, .tick] ∧ s.t = 0xFFFFFFFF#32 ∧
      runSteps 2 s = .next t :=
  have ⟨t, ht⟩ := runSteps_ticks 2 (keyedAt 0xFFFFFFFF)
  ⟨_, t, by decide, rfl, rfl, ht⟩

/-- C8: the oldest value of the window, and the youngest (C7). -/
theorem witness_ReconstructedEpochLiesInTheWindow :
    ¬ ((epochNow 3999).toNat < 16 ∧ (epochNow 3999).toNat < (0#4).toNat) ∧
    ((epochNow 3999).toNat ≤ 0 + 15 ∧ 0 ≤ (epochNow 3999).toNat ∧ 0 % 16 = (0#4).toNat) ∧
    ((epochNow 3999).toNat ≤ 15 + 15 ∧ 15 ≤ (epochNow 3999).toNat ∧ 15 % 16 = (15#4).toNat) := by decide

/-- The greatest epoch, and the three ranges of the elapsed time at their ends. -/
theorem witness_EpochIsRecoveredExactlyWhenRecent :
    (17179869#32).toNat ≤ 17179869 ∧
    (4750#32).toNat = (1000#32).toNat + 3750 ∧
    ((4751#32).toNat = (1000#32).toNat + 3751 ∧ (4999#32).toNat = (1000#32).toNat + 3999) ∧
    (5000#32).toNat = (1000#32).toNat + 4000 := by decide

/-- C2 and, in the last epoch of the corner, bin 15. -/
theorem witness_StartupCornerGivesNoIssuedEpoch :
    ((epochNow 0).toNat < 16 ∧ (epochNow 0).toNat < (1#4).toNat) ∧
    ((epochNow 3749).toNat < 16 ∧ (epochNow 3749).toNat < (15#4).toNat) := by decide

/-- N16, and the two sides of the wrap in C21. -/
theorem witness_WrapOfTheCounterDropsTheEpoch :
    (0xFFFFFFFF#32).toNat = 4294967295 ∧ (epochNow 45).toNat < (epochNow 0xFFFFFFFF#32).toNat := by decide

theorem witness_AddressBytesReplaceTheirLanes :
    (16 ≤ 16 ∧ 15 < 16 ∧ (7 : Fin 16).val = 4 + 15 / 4) ∧ (4 : Fin 16).val = 4 + 0 / 4 ∧
    ((3 : Fin 16).val < 4 ∨ 8 ≤ (3 : Fin 16).val) ∧ ((8 : Fin 16).val < 4 ∨ 8 ≤ (8 : Fin 16).val) := by
  decide

theorem witness_MixingStartsFromKeyAddressAndEpoch :
    ((6 : Fin 16) = 6 ∨ (6 : Fin 16) = 10) ∧ ((7 : Fin 16) ≠ 6 ∧ (7 : Fin 16) ≠ 10) ∧
    ((11 : Fin 16).val < 4 ∨ (11 : Fin 16) = 8 ∨ (11 : Fin 16) = 9 ∨ 11 ≤ (11 : Fin 16).val) := by decide

/-- H2's starting state, on port 0. -/
theorem witness_DigestIsNinetySixArxInstructions :
    ∃ (s : State) (q : Port), s.ports[s.cur]? = some q ∧
      q.x = mixInit s.config keyA 0x0100007F 4 0 :=
  ⟨{ State.reset with
      ports := [{ Port.idle with x := mixInit Config.default keyA 0x0100007F 4 0 }] }, _, rfl, rfl⟩

/-- The key is there, or the entropy port offers one; the longest address. -/
theorem witness_HashAnswersTheDigest :
    16 ≤ 16 ∧ UsesKey (keyedAt 1000) keyA ∧ UsesKey offered keyA := by decide

theorem witness_GenAnswersTheCookieOfNow :
    16 ≤ 16 ∧ UsesKey (keyedAt 1000) keyA ∧ UsesKey offered keyA := by decide

theorem witness_GenCookieHasTheLayout :
    16 ≤ 16 ∧ UsesKey offered keyA ∧ offered.cur < offered.ports.length := by decide

theorem witness_VrfyAnswersTheVerdict :
    16 ≤ 16 ∧ UsesKey (keyedAt 1000) keyA ∧ UsesKey offered keyA := by decide

/-- H13 against H2: the addresses agree before byte 4 and differ after. -/
theorem witness_DigestIgnoresBytesBeyondTheLength :
    (∀ j < 4, j < 16 → (0xBBAA0100007F : AddrField).extractLsb' (8 * j) 8 =
      (0x0100007F : AddrField).extractLsb' (8 * j) 8) ∧
    (0xBBAA0100007F : AddrField) ≠ 0x0100007F := by decide

/-- H10 and H11: the address is the key's own bytes 16 to 19, and byte 20 is the key's next one. -/
theorem witness_AddressLengthIsNotAbsorbed :
    (4 < 16 ∧ (5 : Fin 16).val = 4 + 4 / 4 ∧
      (0x1413121110 : AddrField).extractLsb' (8 * 4) 8 = laneOf keyA[5] (laneLo .le 4)) ∧
    ∀ j < 4, ∀ w : Fin 16, w.val = 4 + j / 4 →
      (0x13121110 : AddrField).extractLsb' (8 * j) 8 = laneOf keyA[w] (laneLo .le j) := by decide

theorem witness_PermutationIsBijective :
    (4 : Fin 16) ≠ 0 ∧ (4 : Fin 16) ≠ 12 ∧ Invertible defaultSchedule := by decide

/-- Two states with one epoch (T = 1000 and T = 1249), one key and addresses that agree before byte 4. -/
theorem witness_GenIsDeterministicWithinABin :
    4 ≤ 16 ∧ (∀ j < 4, (0xBBAA0100007F : AddrField).extractLsb' (8 * j) 8 =
      (0x0100007F : AddrField).extractLsb' (8 * j) 8) ∧
    UsesKey (keyedAt 1000) keyA ∧ UsesKey (keyedAt 1249) keyA ∧
    (keyedAt 1000).config = (keyedAt 1249).config ∧
    epochNow (keyedAt 1000).t = epochNow (keyedAt 1249).t := by decide

theorem witness_VrfyKeepsNoRecord :
    ∃ t, 4 ≤ 16 ∧ UsesKey (keyedAt 1000) keyA ∧
      exec (.vrfy 4 0x0100007F 0x2EF746EE4) (keyedAt 1000) = .next t :=
  ⟨_, by decide, by decide, rfl⟩

/-- A cookie issued at T = 1000, then `n` ticks: the premises of the round trip for `n` = 3750, of expiry
for `n` = 3751 and `n` = 4000. -/
theorem witness_cookie_lifetime (n : Nat) :
    ∃ s1 s2 cookie, 4 ≤ 16 ∧ UsesKey (keyedAt 1000) keyA ∧
      exec (.gen 4 0x0100007F) (keyedAt 1000) = .next s1 ∧
      presented s1 (keyedAt 1000).cur = some { status := .ok, data := cookie } ∧
      NoReset (List.replicate n .tick) ∧ ticksIn (List.replicate n .tick) = n ∧
      runSteps (List.replicate n Move.tick).length { s1 with agenda := List.replicate n .tick } =
        .next s2 := by
  obtain ⟨t, ht⟩ := runSteps_ticks n
    (stateOr (keyedAt 0) (exec (.gen 4 0x0100007F) (keyedAt 1000)))
  refine ⟨_, t, _, by decide, by decide, rfl, rfl, noReset_replicate n, ticksIn_replicate n, ?_⟩
  rw [List.length_replicate]
  exact ht

theorem witness_FreshCookieIsAcceptedAfterAnyInterleaving :
    ticksIn (List.replicate 3750 .tick) ≤ 3750 ∧
    (keyedAt 1000).t.toNat + ticksIn (List.replicate 3750 .tick) < 2 ^ 32 ∧
    ∃ s1 s2 cookie, 4 ≤ 16 ∧ UsesKey (keyedAt 1000) keyA ∧
      exec (.gen 4 0x0100007F) (keyedAt 1000) = .next s1 ∧
      presented s1 (keyedAt 1000).cur = some { status := .ok, data := cookie } ∧
      NoReset (List.replicate 3750 .tick) ∧ ticksIn (List.replicate 3750 .tick) = 3750 ∧
      runSteps (List.replicate 3750 Move.tick).length
        { s1 with agenda := List.replicate 3750 .tick } = .next s2 := by
  exact ⟨(ticksIn_replicate 3750).le, by rw [ticksIn_replicate]; decide, witness_cookie_lifetime 3750⟩

/-- The premises of ExpiredCookieNeedsACollision, for a cookie issued at T = 1000 and `n` ticks. -/
def ExpiryPremises (n : Nat) : Prop :=
  ∃ s1 s2 cookie, 4 ≤ 16 ∧ UsesKey (keyedAt 1000) keyA ∧
    exec (.gen 4 0x0100007F) (keyedAt 1000) = .next s1 ∧
    presented s1 (keyedAt 1000).cur = some { status := .ok, data := cookie } ∧
    NoReset (List.replicate n .tick) ∧ 3751 ≤ ticksIn (List.replicate n .tick) ∧
    (keyedAt 1000).t.toNat + ticksIn (List.replicate n .tick) < 2 ^ 32 ∧
    runSteps (List.replicate n Move.tick).length { s1 with agenda := List.replicate n .tick } = .next s2

theorem expiryPremises_of_le {n : Nat} (h : 3751 ≤ n) (h' : n ≤ 4000) : ExpiryPremises n := by
  have ht : (keyedAt 1000).t.toNat = 1000 := by decide
  obtain ⟨s1, s2, cookie, h1, h2, h3, h4, h5, h6, h7⟩ := witness_cookie_lifetime n
  exact ⟨s1, s2, cookie, h1, h2, h3, h4, h5, by omega, by omega, h7⟩

/-- The first and the last age at which the place in the bin decides. -/
theorem witness_ExpiredCookieNeedsACollision_3751 : ExpiryPremises 3751 :=
  expiryPremises_of_le (by decide) (by decide)

theorem witness_ExpiredCookieNeedsACollision_3999 : ExpiryPremises 3999 :=
  expiryPremises_of_le (by decide) (by decide)

/-- The first age at which only a collision does. -/
theorem witness_ExpiredCookieNeedsACollision : ExpiryPremises 4000 :=
  expiryPremises_of_le (by decide) (by decide)

/-- One request that decodes and one that does not. -/
theorem witness_StepRunsTheDecodedCommand :
    (∃ q, (serving 0x0406 (keyedAt 0)).agenda = .serve 0 :: [] ∧
      (serving 0x0406 (keyedAt 0)).ports[0]? = some q ∧ q.req = some 0x0406 ∧
      decodeRequest 0x0406 = .ok (.gen 4 0)) ∧
    ∃ q, (serving 0x11 (keyedAt 0)).agenda = .serve 0 :: [] ∧
      (serving 0x11 (keyedAt 0)).ports[0]? = some q ∧ q.req = some 0x11 ∧
      decodeRequest 0x11 = .error .reservedField0 :=
  ⟨⟨pendingPort 0x0406, by decide⟩, pendingPort 0x11, by decide⟩

theorem witness_StepRunsTheDecodedMicroOp :
    (State.reset.withFetchWord 24 0x07C04).agenda = .microOp 0 0x07C04 :: [] ∧
    0 < (State.reset.withFetchWord 24 0x07C04).ports.length := by decide

/-- A free port and a busy one. -/
theorem witness_RequestIsTakenOnlyByAFreePort :
    (∃ q, ({ keyedAt 0 with agenda := [.request 0 1] } : State).ports[0]? = some q ∧ q.req = none) ∧
    ∃ q, ({ serving 1 (keyedAt 0) with agenda := [.request 0 1] } : State).ports[0]? = some q ∧
      q.req.isSome = true := ⟨⟨Port.idle, by decide⟩, pendingPort 1, by decide⟩

theorem witness_EntropyOfferIsTheEnvironments :
    (∃ offer rest, ({ offered with agenda := [.entropy none] } : State).agenda =
      .entropy offer :: rest) ∧
    ∃ t, step (serving 1 offered) = .next t ∧
      ∀ offer, (serving 1 offered).agenda.head? ≠ some (.entropy offer) :=
  ⟨⟨_, _, rfl⟩, _, rfl, fun _ => by simp [serving]⟩

theorem witness_ResetForgetsEverything :
    ∃ rest, ({ serving 0x0406 (keyedAt 9) with agenda := [.reset] } : State).agenda =
      .reset :: rest := ⟨_, rfl⟩

theorem witness_EveryStepKeepsTheInvariant :
    ∃ t, StateOk (serving 0x0406 offered) ∧ step (serving 0x11 offered) = .next t ∧
      StateOk (serving 0x11 offered) := ⟨_, by decide, rfl, by decide⟩

theorem witness_InvariantHoldsAtReset : Config.default.legal = true := by decide

/-- R117: what is no schedule of the block: an entry that reads its own target, and a round whose third mix
is on the words of its first. -/
theorem test_legal_refuses :
    ({ Config.default with schedule := defaultSchedule.set 0 ⟨4, 4, 12, 7⟩ } : Config).legal = false ∧
    ({ Config.default with schedule := defaultSchedule.set 8 ⟨4, 0, 12, 7⟩ } : Config).legal = false ∧
    ({ Config.default with nport := 0 } : Config).legal = false := by decide

/-- R116, columns and rows: one entry of each of the first two mixes of the default schedule. -/
theorem witness_LegalSchedulesPermuteInMixes :
    Config.default.legal = true ∧ 0 ≠ 1 ∧ 0 / 4 = 1 / 4 ∧
    (⟨4, 0, 12, 7⟩ : MicroOp) ∈ mixOf Config.default.schedule 0 ∧
    (⟨9, 5, 1, 7⟩ : MicroOp) ∈ mixOf Config.default.schedule 1 := by decide

/-- One response of each status. -/
theorem witness_ResponsePacketHasTheLayout :
    (⟨.ok, 5⟩ : Response).status = .ok ∧
    (⟨.invalidAddressLength, 0⟩ : Response).status = .invalidAddressLength ∧
    (⟨.illegalCommand, 0⟩ : Response).status = .illegalCommand := by decide

/-- A command that fills the key, one that finds it there, one that does not use it, one cut short. -/
theorem witness_CommandsLeaveTheRestAlone :
    isCommand .kinit = true ∧ (∃ t, exec .kinit offered = .next t) ∧
    (usesKeyFill .now = false ∧ ∃ t, exec .now offered = .next t) ∧
    ((keyedAt 0).key.isSome = true ∧ ∃ t, exec .kinit (keyedAt 0) = .next t) ∧
    (lengthOk (.gen 17 0) = false ∧ ∃ t, exec (.gen 17 0) offered = .next t) :=
  ⟨rfl, ⟨_, rfl⟩, ⟨rfl, _, rfl⟩, ⟨rfl, _, rfl⟩, ⟨by decide, _, rfl⟩⟩

theorem witness_CommandsReadOnlyWhatTheMatrixSays :
    isCommand (.recon 15) = true ∧ usesKeyFill (.recon 15) = false := by decide

/-- GEN on the two ports of a machine with a key. -/
theorem witness_ResultDoesNotDependOnThePort :
    isCommand (.gen 4 0) = true ∧ usesKeyFill (.gen 4 0) = true ∧
    (twoPorts.key.isSome = true ∨ twoPorts.ent.isSome = true) ∧
    0 < twoPorts.ports.length ∧ 1 < twoPorts.ports.length := by decide

/-- The last port that is there, and the first that is not. -/
theorem witness_StepStopsOnlyForAnAbsentPort :
    (movePort (.serve 1) = some 1 ∧ 1 < twoPorts.ports.length) ∧
    (movePort (.serve 2) = some 2 ∧ twoPorts.ports.length ≤ 2) := by decide

end Sys2Proof.Machine.Tests
end

/-! PROOFS. The invariant of the machine, the outcomes of a command step, and what a turn of a port
executes (spec/00_scope.md R8, R12, R13). -/

namespace Sys2Proof.Machine

/-! ### The invariant on one port -/

/-- A port that has answered is as the invariant asks, if an error's data is 0 (R64). -/
theorem portOk_answered {a : Response} (ha : a.status ≠ .ok → a.data = 0#64) (q : Port) :
    PortOk (answered a q) := by
  refine ⟨fun h => by simp at h, fun b hb => ?_⟩
  obtain rfl : a = b := by simpa using hb
  exact ha

/-- A port that has just taken a request presents no response (R75). -/
theorem portOk_of_rsp_eq_none {q : Port} (h : q.rsp = none) : PortOk q :=
  ⟨fun _ => h, fun a ha => by simp [h] at ha⟩

/-- The scratch words are no part of what a port may hold. -/
theorem portOk_of_scratch {q : Port} (x : Words) (hq : PortOk q) : PortOk { q with x := x } := hq

/-! ### The invariant on the state -/

/-- Changing one port by a function that keeps `PortOk`, and no parameter, keeps the invariant. -/
theorem stateOk_of_modify {s t : State} {p : Nat} {f : Port → Port} (hs : StateOk s)
    (hf : ∀ q, PortOk q → PortOk (f q)) (hconfig : t.config = s.config)
    (hports : t.ports = s.ports.modify p f) : StateOk t := by
  obtain ⟨hlength, hlegal, hok⟩ := hs
  refine ⟨by rw [hports, hconfig, List.length_modify, hlength],
    hconfig ▸ hlegal, fun q hq => ?_⟩
  obtain ⟨n, hn⟩ := List.mem_iff_getElem?.mp hq
  rw [hports, List.getElem?_modify, Option.map_eq_map, Option.map_eq_some_iff] at hn
  obtain ⟨q₀, hq₀, rfl⟩ := hn
  have hq₀ok : PortOk q₀ := hok q₀ (List.mem_of_getElem? hq₀)
  split
  · exact hf q₀ hq₀ok
  · exact hq₀ok

/-- An answer on the current port keeps the invariant, if an error's data is 0 (R64). -/
theorem stateOk_withAnswer {s : State} {a : Response} (hs : StateOk s)
    (ha : a.status ≠ .ok → a.data = 0#64) : StateOk (withAnswer a s) :=
  stateOk_of_modify hs (fun q _ => portOk_answered ha q) rfl (withAnswer_ports a s)

/-- A completed key-using command keeps the invariant, whether it filled the key or found it there. -/
theorem stateOk_afterKeyed {s : State} (k : Words) (d : DWord) (hs : StateOk s) :
    StateOk (afterKeyed k d s) :=
  stateOk_of_modify hs (fun q _ => portOk_answered (fun h => absurd rfl h) q) rfl
    (afterKeyed_ports k d s)

/-- A micro-operation on the scratch words of one port keeps the invariant. -/
theorem stateOk_modifyScratch {s : State} (p : Nat) (u : MicroOp) (hs : StateOk s) :
    StateOk (modifyPort p (fun q => { q with x := arxWord u q.x }) s) :=
  stateOk_of_modify hs (fun q hq => portOk_of_scratch (arxWord u q.x) hq) rfl (modifyPort_ports ..)

/-- A reset keeps the invariant: the parameters stay, and `NPORT` idle ports are what is left (R32). -/
theorem stateOk_applyReset {s : State} (hs : StateOk s) : StateOk (applyReset s) := by
  obtain ⟨-, hlegal, -⟩ := hs
  refine ⟨by simp, hlegal, fun q hq => ?_⟩
  obtain rfl : q = Port.idle := List.eq_of_mem_replicate hq
  exact portOk_of_rsp_eq_none rfl

/-! ### What runs keeps the invariant -/

/-- Every instruction keeps the invariant, in each of its outcomes. -/
theorem stateOk_of_exec {i : Instr} {s t : State} (hs : StateOk s) (h : exec i s = .next t) :
    StateOk t := by
  rcases exec_cases i s with ⟨-, h'⟩ | ⟨-, -, -, -, h'⟩ | ⟨-, -, k, d, -, h'⟩ |
      ⟨-, -, d, h'⟩ | ⟨-, u, h'⟩ <;> rw [h'] at h <;> cases h
  · exact stateOk_withAnswer hs fun _ => rfl
  · exact hs
  · exact stateOk_afterKeyed k d hs
  · exact stateOk_withAnswer hs fun h => absurd rfl h
  · exact stateOk_modifyScratch s.cur u hs

/-- Every move keeps the invariant. Making a port current changes neither ports nor parameters. -/
theorem stateOk_of_runMove {m : Move} {s t : State} (hs : StateOk s) (h : runMove m s = .next t) :
    StateOk t := by
  have hcur (p : Nat) : StateOk { s with cur := p } := hs
  cases m with
  | tick => cases h; exact hs
  | reset => cases h; exact stateOk_applyReset hs
  | entropy offer => cases h; exact hs
  | request p r =>
    rcases presentRequest_cases h with ⟨-, -, -, rfl⟩ | ⟨-, -, -, rfl⟩
    · exact stateOk_of_modify hs (fun _ _ => portOk_of_rsp_eq_none rfl) rfl rfl
    · exact hs
  | serve p =>
    rcases servePort_cases h with ⟨-, -, -, rfl⟩ | ⟨-, -, i, -, -, -, hexec⟩ |
        ⟨-, -, -, -, -, -, rfl⟩
    · exact hs
    · exact stateOk_of_exec (hcur p) hexec
    · exact stateOk_withAnswer (hcur p) fun _ => rfl
  | microOp p w =>
    obtain ⟨-, -, rfl⟩ := runMicroOp_cases h
    exact stateOk_modifyScratch p _ (hcur p)

/-- Settles O50: beginning a move touches neither ports nor parameters, and every move keeps the
invariant. -/
theorem everyStepKeepsTheInvariant : Obligations.EveryStepKeepsTheInvariant := by
  intro s t hs h
  have hbegin : StateOk (beginMove (nextMove s).2 s) := hs
  exact stateOk_of_runMove hbegin h

/-! ### The outcomes of a command step -/

/-- Settles O9, by the outcomes of the decoded command; what a packet decodes to is never the
micro-operation, and a packet that does not decode fails with IllegalCommand. -/
theorem commandStepHasThreeOutcomes : Obligations.CommandStepHasThreeOutcomes := by
  intro r s
  rcases executePacket_cases r s with ⟨i, hdecode, hrun⟩ | ⟨-, -, hillegal⟩
  · rw [hrun]
    rcases exec_cases i s with ⟨-, hlong⟩ | ⟨-, -, hkey, hent, hstall⟩ | ⟨-, -, k, d, hk, hkeyed⟩ |
        ⟨-, -, d, hok⟩ | ⟨hmicro, -⟩
    · exact .inr (.inr (.inl ⟨.invalidAddressLength, by decide, hlong⟩))
    · exact .inr (.inr (.inr ⟨hkey, hent, hstall⟩))
    · exact .inl ⟨k, d, hk, hkeyed⟩
    · exact .inr (.inl ⟨d, hok⟩)
    · exact absurd (isCommand_of_decodeRequest hdecode) (by simp [hmicro])
  · exact .inr (.inr (.inl ⟨.illegalCommand, by decide, hillegal⟩))

/-! ### From a step to the decoded command -/

/-- A packet that decodes is executed as the command it decodes to. -/
theorem executePacket_of_ok {r : Packet} {i : Instr} (h : decodeRequest r = .ok i) (s : State) :
    executePacket r s = exec i s := by
  simp [executePacket, h]

/-- A packet that does not decode answers IllegalCommand (R162). -/
theorem executePacket_of_error {r : Packet} {e : DecodeError} (h : decodeRequest r = .error e)
    (s : State) : executePacket r s = .next (withAnswer ⟨.illegalCommand, 0⟩ s) := by
  simp only [executePacket, h]
  rfl

/-- A port with a request in flight executes it, made current. -/
theorem servePort_of_req {s : State} {p : Nat} {q : Port} {r : Packet} (hq : s.ports[p]? = some q)
    (hr : q.req = some r) : servePort p s = executePacket r { s with cur := p } := by
  simp [servePort, hq, hr]

/-- The turn of a port with a request in flight executes that request, with the turn used up, an earlier
`ent_take` over and the port current. -/
theorem step_serve {s : State} {p : Nat} {rest : List Move} {q : Port} {r : Packet}
    (hagenda : s.agenda = .serve p :: rest) (hq : s.ports[p]? = some q) (hr : q.req = some r) :
    step s = executePacket r { s with agenda := rest, entTake := false, cur := p } :=
  calc step s = servePort p (beginMove rest s) := step_cons hagenda
    _ = executePacket r { s with agenda := rest, entTake := false, cur := p } :=
      servePort_of_req (s := beginMove rest s) hq hr

/-- Settles O44: the turn executes the packet in flight, and the packet what it decodes to. -/
theorem stepRunsTheDecodedCommand : Obligations.StepRunsTheDecodedCommand := by
  intro s p rest q r hagenda hq hr
  rw [step_serve hagenda hq hr]
  exact ⟨fun _ hi => executePacket_of_ok hi _, fun _ he => executePacket_of_error he _⟩

end Sys2Proof.Machine

/-! PROOFS. The state of spec/10_state.md: the key is written once and comes from the entropy port, the
counter counts the ticks, what a command changes and reads, and that no step shows the scratch words. -/

namespace Sys2Proof.Machine

/-! ### The key and the counter over a step -/

/-- The move of a step is the reset agent's only where the agenda begins with it. -/
theorem head?_of_nextMove_eq_reset {s : State} (h : (nextMove s).1 = .reset) :
    s.agenda.head? = some .reset := by
  cases hagenda : s.agenda with
  | nil => simp [nextMove, hagenda] at h
  | cons m rest =>
    obtain rfl : m = .reset := by simpa [nextMove, hagenda] using h
    rfl

/-- What a step does to the key and to `ent_take`: a reset clears both, the key fill takes the bytes that the
entropy port offers where no key is there, and any other step leaves the key and pulses nothing. -/
theorem step_key_cases {s t : State} (h : step s = .next t) :
    (s.agenda.head? = some .reset ∧ t.key = none ∧ t.entTake = false) ∨
    (t.key = s.key ∧ t.entTake = false) ∨
    (∃ e, s.key = none ∧ s.ent = some e ∧ t.key = some (keyWords s.config.byteOrder e) ∧
      t.entTake = true) := by
  rcases runMove_cases h with ⟨-, rfl⟩ | ⟨hreset, rfl⟩ | ⟨-, -, hquiet⟩
  · exact .inr (.inl ⟨rfl, rfl⟩)
  · exact .inl ⟨head?_of_nextMove_eq_reset hreset, rfl, rfl⟩
  · rcases hquiet.key with hkept | ⟨e, hkey, hent, -, hfilled, htake⟩
    · exact .inr (.inl hkept)
    · exact .inr (.inr ⟨e, hkey, hent, hfilled, htake⟩)

/-- Settles O14: of the things a step can do to the key, the fill needs it absent and the reset is shut
out. -/
theorem keyIsWriteOnce : Obligations.KeyIsWriteOnce := by
  intro s t k h hkey hnoreset
  rcases step_key_cases h with ⟨hreset, -, -⟩ | ⟨hkept, -⟩ | ⟨e, habsent, -⟩
  · exact absurd hreset hnoreset
  · rw [hkept, hkey]
  · rw [hkey] at habsent
    cases habsent

/-- Settles O15: of the things a step can do to the key, only the fill makes one appear or pulses
`ent_take`. -/
theorem keyComesFromTheEntropyPort : Obligations.KeyComesFromTheEntropyPort := by
  intro s t h
  rcases step_key_cases h with ⟨-, hcleared, htake⟩ | ⟨hkept, htake⟩ |
      ⟨e, habsent, hent, hfilled, htake⟩
  · exact ⟨fun k _ hk => by simp [hcleared] at hk, fun hpulse => by simp [htake] at hpulse⟩
  · exact ⟨fun k hnone hk => by simp [hkept, hnone] at hk, fun hpulse => by simp [htake] at hpulse⟩
  · refine ⟨fun k _ hk => ⟨e, hent, ?_, htake⟩, fun _ => ⟨habsent, by simp [hfilled]⟩⟩
    exact (Option.some.inj (hfilled.symm.trans hk)).symm

/-- A stretch of moves has the ticks of its first move and of the rest. -/
theorem ticksIn_cons (m : Move) (ms : List Move) :
    ticksIn (m :: ms) = ticksIn ms + if isTick m then 1 else 0 :=
  List.countP_cons

/-- A step by a move other than a reset uses up that move and advances the counter, modulo 2^32, if the move
is a tick. -/
theorem step_counter {s u : State} {m : Move} {rest : List Move} (hagenda : s.agenda = m :: rest)
    (hm : isReset m = false) (h : step s = .next u) :
    u.agenda = rest ∧ u.t.toNat = (s.t.toNat + if isTick m then 1 else 0) % 2 ^ 32 := by
  rw [step_cons hagenda] at h
  rcases runMove_cases h with ⟨rfl, rfl⟩ | ⟨rfl, -⟩ | ⟨htick, -, hquiet⟩
  · exact ⟨rfl, by simp [isTick, BitVec.toNat_add]⟩
  · cases hm
  · have hnotick : isTick m = false := by
      cases m with
      | tick => exact absurd rfl htick
      | _ => rfl
    have hkept : u.t = s.t := hquiet.counter
    refine ⟨hquiet.agenda, ?_⟩
    simp only [hkept, hnotick, Bool.false_eq_true, if_false, Nat.add_zero]
    exact (Nat.mod_eq_of_lt s.t.isLt).symm

/-- Settles O18, by induction on the stretch of moves: each step uses up one of them and counts it. -/
theorem counterCountsTheTicks : Obligations.CounterCountsTheTicks := by
  intro ms
  induction ms with
  | nil =>
    intro s t _ _ h
    obtain rfl := (runSteps_zero s t).mp h
    exact (Nat.mod_eq_of_lt s.t.isLt).symm
  | cons m rest ih =>
    intro s t hnoreset hagenda h
    obtain ⟨u, hstep, hrun⟩ := (runSteps_succ rest.length s t).mp h
    obtain ⟨hm, hrest⟩ := List.forall_mem_cons.mp hnoreset
    obtain ⟨hused, hfirst⟩ := step_counter hagenda hm hstep
    have hlater := ih u t hrest hused hrun
    rw [hlater, hfirst, ticksIn_cons, Nat.mod_add_mod]
    congr 1
    omega

/-! ### What a command leaves alone -/

/-- What a command does to the ports: it changes at most the current one, and not its scratch words. -/
theorem exec_ports {i : Instr} {s t : State} (hcommand : isCommand i = true)
    (h : exec i s = .next t) :
    ∃ f : Port → Port, (∀ q, (f q).x = q.x) ∧ t.ports = s.ports.modify s.cur f := by
  rcases exec_cases i s with ⟨-, h'⟩ | ⟨-, -, -, -, h'⟩ | ⟨-, -, k, d, -, h'⟩ |
      ⟨-, -, d, h'⟩ | ⟨hmicro, -⟩
  case inr.inr.inr.inr => simp [hmicro] at hcommand
  all_goals rw [h'] at h; cases h
  · exact ⟨_, answered_x _, withAnswer_ports ..⟩
  · exact ⟨id, fun _ => rfl, (List.modify_id _ _).symm⟩
  · exact ⟨_, answered_x _, afterKeyed_ports ..⟩
  · exact ⟨_, answered_x _, withAnswer_ports ..⟩

/-- Mapping a list of which one entry was changed is changing the mapped list, if the two changes agree under
the map. -/
theorem map_modify_of_comm {α β : Type} {f : α → α} {f' : β → β} {g : α → β}
    (h : ∀ a, g (f a) = f' (g a)) (l : List α) (n : Nat) : (l.modify n f).map g = (l.map g).modify n f' := by
  refine List.ext_getElem? fun j => ?_
  simp only [List.getElem?_modify, List.getElem?_map, Option.map_eq_map, Option.map_map]
  congr 1
  funext a
  by_cases hn : n = j
  · simp [hn, h]
  · simp [hn]

/-- Mapping a list does not show a change of one entry that the map does not show. -/
theorem map_modify_of_invisible {α β : Type} {f : α → α} {g : α → β} (h : ∀ a, g (f a) = g a)
    (l : List α) (n : Nat) : (l.modify n f).map g = l.map g := by
  rw [map_modify_of_comm (f' := id) h, List.modify_id]

/-- Settles O52: a command changes one port's request and response, and the key fill, which is the only
other change, takes a command that calls it, no key, and an address that is short enough. -/
theorem commandsLeaveTheRestAlone : Obligations.CommandsLeaveTheRestAlone := by
  intro i s t hcommand h
  obtain ⟨hconfig, ht, hent, hagenda, hcur, hlength, hkey⟩ := exec_effect h
  obtain ⟨f, hf, hports⟩ := exec_ports hcommand h
  refine ⟨hconfig, ht, hent, hagenda, hcur, hlength, fun p hp => ?_, fun p => ?_, fun hnofill => ?_⟩
  · rw [hports, List.getElem?_modify_ne f _ hp.symm]
  · rw [hports, ← List.getElem?_map, map_modify_of_invisible hf, List.getElem?_map]
  · rcases hkey with hkept | ⟨e, habsent, -, hcalls, hlong, -⟩
    · exact hkept
    · simp [habsent, hcalls, hlong] at hnofill

/-! ### Changes of the state that a command does not see -/

/-- Answering on the current port commutes with the change `g` of the state. -/
def KeepsRespond (g : State → State) : Prop :=
  ∀ st d s, respond st d (g s) = g (respond st d s)

/-- The key fill gives the same key, or stalls as well, under the change `g` of the state. -/
def KeepsKeyFill (g : State → State) : Prop :=
  ∀ s, keyFill (g s) = (keyFill s).map (Prod.map id g)

section commutes
variable {g : State → State}

/-- The key fill does not see a change that keeps what it reads (key, offer and parameters) and that commutes
with what it writes (key and `ent_take`). -/
theorem keepsKeyFill_of (hkey : ∀ s, (g s).key = s.key) (hent : ∀ s, (g s).ent = s.ent)
    (hconfig : ∀ s, (g s).config = s.config) (htake : ∀ s, (g s).entTake = s.entTake)
    (hwrite : ∀ s k b, { g s with key := some k, entTake := b } =
      g { s with key := some k, entTake := b }) : KeepsKeyFill g := by
  intro s
  rcases usesKey_or_stalls s with ⟨k, huses⟩ | ⟨hnone, hoffer⟩
  · have huses' : UsesKey (g s) k := by rwa [UsesKey, hkey, hent, hconfig]
    rw [keyFill_of_usesKey huses, keyFill_of_usesKey huses', hkey, htake]
    exact congrArg some (Prod.ext rfl (hwrite s k _))
  · rw [keyFill_of_no_entropy hnone hoffer,
      keyFill_of_no_entropy ((hkey s).trans hnone) ((hent s).trans hoffer)]
    rfl

/-- Completing with a given result does not see a change that keeps the answer. -/
theorem complete_commutes (hg : KeepsRespond g) (d : DWord) (s : State) :
    complete d (g s) = mapNext g (complete d s) :=
  congrArg Host.Outcome.next (hg .ok d s)

/-- Raising an error does not see a change that keeps the answer. -/
theorem raiseError_commutes (hg : KeepsRespond g) (st : Status) (s : State) :
    raiseError st (g s) = mapNext g (raiseError st s) :=
  congrArg Host.Outcome.next (hg st 0 s)

/-- KINIT does not see a change that keeps the key fill: its result is 0 always (R81). -/
theorem execKinit_commutes (hg : KeepsRespond g) (hfill : KeepsKeyFill g) (s : State) :
    execKinit (g s) = mapNext g (execKinit s) := by
  unfold execKinit
  rw [hfill]
  cases keyFill s with
  | none => rfl
  | some filled => exact complete_commutes hg 0 filled.2

/-- A key-using command does not see a change that keeps the key fill, if its result does not. -/
theorem keyedCommand_commutes (hg : KeepsRespond g) (hfill : KeepsKeyFill g)
    {result : Words → State → DWord} (hresult : ∀ k s, result k (g s) = result k s) (alen : Nat)
    (s : State) : keyedCommand alen result (g s) = mapNext g (keyedCommand alen result s) := by
  unfold keyedCommand
  by_cases hlong : ADDR_MAX < alen
  · rw [if_pos hlong, if_pos hlong]
    exact raiseError_commutes hg _ s
  · rw [if_neg hlong, if_neg hlong, hfill]
    cases keyFill s with
    | none => rfl
    | some filled =>
      simp only [Option.map_some, Prod.map, id, hresult]
      exact complete_commutes hg _ filled.2

/-- A command sees no change of the state that keeps what it reads: key fill, parameters and counter. -/
theorem exec_commutes (hg : KeepsRespond g) (hfill : KeepsKeyFill g)
    (hconfig : ∀ s, (g s).config = s.config) (ht : ∀ s, (g s).t = s.t) {i : Instr}
    (hcommand : isCommand i = true) (s : State) : exec i (g s) = mapNext g (exec i s) := by
  cases i with
  | kinit => exact execKinit_commutes hg hfill s
  | now => simp only [exec, execNow, ht, complete_commutes hg]
  | recon bin => simp only [exec, execRecon, ht, complete_commutes hg]
  | pack d e => exact complete_commutes hg _ s
  | unpk c => exact complete_commutes hg _ s
  | hash n a e => exact keyedCommand_commutes hg hfill (fun k u => by simp only [hconfig]) n s
  | gen n a => exact keyedCommand_commutes hg hfill (fun k u => by simp only [hconfig, ht]) n s
  | vrfy n a c => exact keyedCommand_commutes hg hfill (fun k u => by simp only [hconfig, ht]) n s
  | arx t a b r => cases hcommand

end commutes

/-! ### What a command does not read -/

/-- The answer is the same whatever the key is. -/
theorem keepsRespond_setKey (key : Option Words) : KeepsRespond fun u => { u with key := key } :=
  fun _ _ _ => rfl

/-- The answer is the same whatever the counter is. -/
theorem keepsRespond_setCounter (c : Word) : KeepsRespond fun u => { u with t := c } :=
  fun _ _ _ => rfl

/-- The key fill does not read the counter (R80). -/
theorem keepsKeyFill_setCounter (c : Word) : KeepsKeyFill fun u => { u with t := c } :=
  keepsKeyFill_of (fun _ => rfl) (fun _ => rfl) (fun _ => rfl) (fun _ => rfl) (fun _ _ _ => rfl)

/-- KINIT with a key there answers the same whichever it is. -/
theorem execKinit_setKey (s : State) (k k' : Words) :
    execKinit { s with key := some k' } =
      mapNext (fun u => { u with key := some k' }) (execKinit { s with key := some k }) := by
  rw [execKinit_completes (.inl rfl), execKinit_completes (.inl rfl)]
  rfl

/-- Settles O53: a change of the key commutes with a command that calls no key fill, and a change of the
counter with a command whose result is no function of it. -/
theorem commandsReadOnlyWhatTheMatrixSays : Obligations.CommandsReadOnlyWhatTheMatrixSays := by
  constructor
  · intro i s key hcommand hnofill
    have hanswer := complete_commutes (keepsRespond_setKey key)
    cases i with
    | now => exact hanswer _ s
    | recon bin => exact hanswer _ s
    | pack d e => exact hanswer _ s
    | unpk c => exact hanswer _ s
    | arx t a b r => cases hcommand
    | _ => cases hnofill
  · intro s c n addr e d cookie
    have hanswer := keepsRespond_setCounter c
    have hfill := keepsKeyFill_setCounter c
    exact ⟨execKinit_commutes hanswer hfill s, keyedCommand_commutes hanswer hfill (fun _ _ => rfl) n s,
      complete_commutes hanswer _ s, complete_commutes hanswer _ s, execKinit_setKey s⟩

/-! ### Erasing the scratch words -/

/-- A port with its scratch words cleared. -/
def Port.eraseScratch (q : Port) : Port := { q with x := zeroWords }

/-- Erasing the scratch words of the state clears those of each port. -/
theorem eraseScratch_ports (s : State) :
    (eraseScratch s).ports = s.ports.map Port.eraseScratch := rfl

/-- Scratch words that are cleared can be cleared again to no effect. -/
theorem eraseScratch_idem (s : State) : eraseScratch (eraseScratch s) = eraseScratch s := by
  simp [eraseScratch, Function.comp_def]

/-- A change of one port that commutes with clearing its scratch words commutes with erasing them all. -/
theorem modifyPort_eraseScratch {f : Port → Port}
    (hf : ∀ q : Port, f q.eraseScratch = (f q).eraseScratch) (p : Nat) (s : State) :
    modifyPort p f (eraseScratch s) = eraseScratch (modifyPort p f s) :=
  congrArg (fun ports => { s with ports := ports })
    (map_modify_of_comm (fun q => (hf q).symm) s.ports p).symm

/-- A change of the scratch words of one port is gone when they are erased. -/
theorem eraseScratch_modifyPort {f : Port → Port}
    (hf : ∀ q : Port, (f q).eraseScratch = q.eraseScratch) (p : Nat) (s : State) :
    eraseScratch (modifyPort p f s) = eraseScratch s :=
  congrArg (fun ports => { s with ports := ports }) (map_modify_of_invisible hf s.ports p)

/-- The answer leaves the scratch words alone (R64). -/
theorem keepsRespond_eraseScratch : KeepsRespond eraseScratch :=
  fun st d s => modifyPort_eraseScratch (f := answered ⟨st, d⟩) (fun _ => rfl) s.cur s

/-- The key fill neither reads nor writes the scratch words (R80). -/
theorem keepsKeyFill_eraseScratch : KeepsKeyFill eraseScratch :=
  keepsKeyFill_of (fun _ => rfl) (fun _ => rfl) (fun _ => rfl) (fun _ => rfl) (fun _ _ _ => rfl)

/-- No packet shows the scratch words: what it decodes to is a command, and no command reads them. -/
theorem executePacket_eraseScratch (r : Packet) (s : State) :
    executePacket r (eraseScratch s) = mapNext eraseScratch (executePacket r s) := by
  unfold executePacket
  cases hdecode : decodeRequest r with
  | ok i =>
    exact exec_commutes keepsRespond_eraseScratch keepsKeyFill_eraseScratch (fun _ => rfl)
      (fun _ => rfl) (isCommand_of_decodeRequest hdecode) s
  | error e => exact raiseError_commutes keepsRespond_eraseScratch .illegalCommand s

/-- The port that has number `p` once the scratch words are erased. -/
theorem getElem?_eraseScratch (s : State) (p : Nat) :
    (eraseScratch s).ports[p]? = (s.ports[p]?).map Port.eraseScratch := by
  rw [eraseScratch_ports, List.getElem?_map]

/-- A port's turn does not show the scratch words. -/
theorem servePort_eraseScratch (p : Nat) (s : State) :
    servePort p (eraseScratch s) = mapNext eraseScratch (servePort p s) := by
  unfold servePort
  rw [getElem?_eraseScratch]
  cases s.ports[p]? with
  | none => rfl
  | some q =>
    cases hreq : q.req with
    | none => simp [Port.eraseScratch, hreq, mapNext]
    | some r =>
      simp only [Option.map_some, Port.eraseScratch, hreq]
      exact executePacket_eraseScratch r { s with cur := p }

/-- Presenting a request does not show the scratch words. -/
theorem presentRequest_eraseScratch (p : Nat) (r : Packet) (s : State) :
    presentRequest p r (eraseScratch s) = mapNext eraseScratch (presentRequest p r s) := by
  unfold presentRequest
  rw [getElem?_eraseScratch]
  cases s.ports[p]? with
  | none => rfl
  | some q =>
    cases hreq : q.req with
    | none =>
      simp only [Option.map_some, Port.eraseScratch, hreq, mapNext]
      exact congrArg Host.Outcome.next
        (modifyPort_eraseScratch (f := fun q => { q with req := some r, rsp := none }) (fun _ => rfl) p s)
    | some r' => simp [Port.eraseScratch, hreq, mapNext]

/-- What commutes with erasing the scratch words gives the same without them, but for them. -/
theorem mapNext_eraseScratch_congr {o o' : Host.Outcome State Fault Refusal}
    (h : o' = mapNext eraseScratch o) : mapNext eraseScratch o = mapNext eraseScratch o' := by
  subst h
  cases o with
  | next s => exact congrArg Host.Outcome.next (eraseScratch_idem s).symm
  | fault r => rfl
  | refused r => rfl

/-- A micro-operation, which does read the scratch words, changes nothing else. -/
theorem runMicroOp_eraseScratch (p : Nat) (w : UopWord) (s : State) :
    mapNext eraseScratch (runMicroOp p w s) =
      mapNext eraseScratch (runMicroOp p w (eraseScratch s)) := by
  unfold runMicroOp
  rw [getElem?_eraseScratch]
  cases s.ports[p]? with
  | none => rfl
  | some q =>
    refine congrArg Host.Outcome.next ?_
    have hgone (u : State) := eraseScratch_modifyPort
      (f := fun q => { q with x := arxWord ⟨uopT w, uopA w, uopB w, uopR w⟩ q.x }) (fun _ => rfl) p u
    calc eraseScratch (modifyPort p _ { s with cur := p })
      _ = eraseScratch { s with cur := p } := hgone _
      _ = eraseScratch (eraseScratch { s with cur := p }) := (eraseScratch_idem _).symm
      _ = eraseScratch (modifyPort p _ (eraseScratch { s with cur := p })) := (hgone _).symm

/-- No move shows the scratch words. -/
theorem runMove_eraseScratch (m : Move) (s : State) :
    mapNext eraseScratch (runMove m s) = mapNext eraseScratch (runMove m (eraseScratch s)) := by
  cases m with
  | tick => exact mapNext_eraseScratch_congr rfl
  | reset => rfl
  | entropy offer => exact mapNext_eraseScratch_congr rfl
  | request p r => exact mapNext_eraseScratch_congr (presentRequest_eraseScratch p r s)
  | serve p => exact mapNext_eraseScratch_congr (servePort_eraseScratch p s)
  | microOp p w => exact runMicroOp_eraseScratch p w s

/-- Settles O54: erasing the scratch words changes neither who moves nor the beginning of the move, and no
move shows them. -/
theorem scratchWordsAreInvisible : Obligations.ScratchWordsAreInvisible :=
  fun s => runMove_eraseScratch (nextMove s).1 (beginMove (nextMove s).2 s)

/-! ### The state after reset -/

/-- After reset every port is idle, whatever the parameters are (R32). -/
theorem eq_idle_of_mem_resetWith_ports {c : Config} {q : Port} (h : q ∈ (State.resetWith c).ports) :
    q = Port.idle :=
  List.eq_of_mem_replicate h

/-- Settles O49: the values are those of `State.resetWith`, and every port is idle. -/
theorem resetStateHasTheSpecsValues : Obligations.ResetStateHasTheSpecsValues := by
  refine ⟨rfl, rfl, rfl, rfl, fun q hq => ?_⟩
  rw [eq_idle_of_mem_resetWith_ports hq]
  rfl

/-- The invariant holds after reset under legal parameters: there are `NPORT` ports and they are idle. -/
theorem stateOk_resetWith {c : Config} (hlegal : c.legal = true) : StateOk (State.resetWith c) := by
  refine ⟨List.length_replicate, hlegal, fun q hq => ?_⟩
  rw [eq_idle_of_mem_resetWith_ports hq]
  exact portOk_of_rsp_eq_none rfl

/-- The defaults of R8 are legal. -/
theorem legal_default : Config.default.legal = true := by decide

/-- Settles O51, the default parameters being legal. -/
theorem invariantHoldsAtReset : Obligations.InvariantHoldsAtReset :=
  ⟨stateOk_resetWith legal_default, fun _ => stateOk_resetWith⟩

end Sys2Proof.Machine

/-! PROOFS. The byte order of spec/20_memory.md: where the bytes of the key fill land in the key words. -/

namespace Sys2Proof.Machine

/-! ### Key bytes in their lanes (R43, R44) -/

/-- Key word `w` is made of the four key bytes from `4w` on. -/
theorem keyWords_getElem (o : ByteOrder) (e : EntBytes) (w : Fin 16) :
    (keyWords o e)[w] =
      keyWord o e[4 * w.val] e[4 * w.val + 1] e[4 * w.val + 2] e[4 * w.val + 3] := by
  simp [keyWords]

/-- Under either byte order, byte `l` of the four stands in the lane R43 gives to byte `l`. -/
theorem laneOf_keyWord (o : ByteOrder) (b : Fin 4 → Byte) (l : Fin 4) :
    laneOf (keyWord o (b 0) (b 1) (b 2) (b 3)) (laneLo o l) = b l := by
  cases o with
  | le =>
    obtain ⟨h0, h1, h2, h3⟩ := laneOf_bytesToWord (b 3) (b 2) (b 1) (b 0)
    fin_cases l
    exacts [h0, h1, h2, h3]
  | be =>
    obtain ⟨h3, h2, h1, h0⟩ := laneOf_bytesToWord (b 0) (b 1) (b 2) (b 3)
    fin_cases l
    exacts [h0, h1, h2, h3]

/-- The lane of a byte depends on its place among its four only. -/
theorem laneLo_mod (o : ByteOrder) (j : Nat) : laneLo o (j % 4) = laneLo o j := by
  cases o <;> simp [laneLo]

/-- Key byte `j` stands in key word `j div 4`, in the lane R43 gives to byte `j`. -/
theorem laneOf_keyWords (o : ByteOrder) (e : EntBytes) {j : Fin 64} {w : Fin 16}
    (hw : w.val = j.val / 4) : laneOf (keyWords o e)[w] (laneLo o j) = e[j] := by
  have hlane := laneOf_keyWord o (fun l => e[4 * w.val + l.val]) ⟨j % 4, by omega⟩
  have hj : 4 * w.val + j.val % 4 = j.val := by omega
  rw [keyWords_getElem, ← laneLo_mod]
  simp only [hj] at hlane
  exact hlane

/-- Settles O11: `laneOf_keyWords` under each byte order, with the bit positions of R43 written out. -/
theorem keyBytesLandInTheirLanes : Obligations.KeyBytesLandInTheirLanes :=
  fun e _ _ hw => ⟨laneOf_keyWords .le e hw, laneOf_keyWords .be e hw⟩

end Sys2Proof.Machine

/-! PROOFS. The encoding of spec/30_encoding.md: what the decoder reads of a packet and what it drops, decoding
an encoded instruction, the response packet; and the moves of the pins a request and the entropy come in at. -/

namespace Sys2Proof

/-! ### What a request packet decodes to (R66 to R71) -/

/-- The table of R67 as a relation: the command that an opcode below 8 and the other fields of a packet
stand for. -/
inductive FieldsGive (alen : Nat) (addr : AddrField) (arg : DWord) : BitVec 4 → Instr → Prop where
  | kinit : FieldsGive alen addr arg 0#4 .kinit
  | now : FieldsGive alen addr arg 1#4 .now
  | recon : FieldsGive alen addr arg 2#4 (.recon (argBin arg))
  | hash : FieldsGive alen addr arg 3#4 (.hash alen addr (argLow arg))
  | pack : FieldsGive alen addr arg 4#4 (.pack (argLow arg) (argHigh arg))
  | unpk : FieldsGive alen addr arg 5#4 (.unpk arg)
  | gen : FieldsGive alen addr arg 6#4 (.gen alen addr)
  | vrfy : FieldsGive alen addr arg 7#4 (.vrfy alen addr arg)

/-- The opcodes below 8, one by one. -/
theorem opcode_cases {op : BitVec 4} (h : op.toNat < 8) :
    op = 0#4 ∨ op = 1#4 ∨ op = 2#4 ∨ op = 3#4 ∨ op = 4#4 ∨ op = 5#4 ∨ op = 6#4 ∨ op = 7#4 := by
  decide +revert

/-- An opcode stands for a command exactly where it is below 8 (R66, R68). -/
theorem exists_fieldsGive_iff (alen : Nat) (addr : AddrField) (arg : DWord) (op : BitVec 4) :
    (∃ i, FieldsGive alen addr arg op i) ↔ op.toNat < 8 := by
  constructor
  · rintro ⟨i, h⟩
    cases h <;> decide
  · intro h
    rcases opcode_cases h with rfl | rfl | rfl | rfl | rfl | rfl | rfl | rfl
    exacts [⟨_, .kinit⟩, ⟨_, .now⟩, ⟨_, .recon⟩, ⟨_, .hash⟩, ⟨_, .pack⟩, ⟨_, .unpk⟩, ⟨_, .gen⟩,
      ⟨_, .vrfy⟩]

/-- The decoder gives a command exactly where both reserved fields are 0, and then the one that the other
fields stand for. -/
theorem decodeRequest_eq_ok_iff (r : Packet) (i : Instr) :
    decodeRequest r = .ok i ↔ reqRsv0 r = 0#4 ∧ reqRsv1 r = 0#16 ∧
      FieldsGive (reqAlen r).toNat (reqAddr r) (reqArg r) (reqOp r) i := by
  constructor
  · intro h
    unfold decodeRequest at h
    split at h
    case isTrue => cases h
    case isFalse h0 =>
      split at h
      case isTrue => cases h
      case isFalse h1 =>
        refine ⟨not_not.mp h0, not_not.mp h1, ?_⟩
        generalize reqOp r = op at h
        split at h <;> cases h
        all_goals
          next hop =>
          have hop' := BitVec.ofNat_toNat 4 op
          rw [hop, BitVec.setWidth_eq] at hop'
          subst hop'
          constructor
  · rintro ⟨h0, h1, h⟩
    unfold decodeRequest
    rw [if_neg (not_not.mpr h0), if_neg (not_not.mpr h1)]
    generalize reqOp r = op at h
    cases h <;> rfl

/-! ### Decoding what was encoded -/

/-- A packet put together from its fields decodes to what the fields stand for. -/
theorem decodeRequest_requestPacket {op : BitVec 4} {alen : BitVec 8} {n : Nat} {addr : AddrField}
    {arg : DWord} {i : Instr} (hn : alen.toNat = n) (h : FieldsGive n addr arg op i) :
    decodeRequest (requestPacket op alen addr arg) = .ok i := by
  subst hn
  rw [decodeRequest_eq_ok_iff]
  simpa using h

/-- Settles O1: every row of R67 reads back, the operands from their fields, and a micro-operation word reads
back field by field. -/
theorem decodeOfEncodeIsIdentity : Obligations.DecodeOfEncodeIsIdentity := by
  intro i hwf
  cases i with
  | kinit => exact decodeRequest_requestPacket rfl .kinit
  | now => exact decodeRequest_requestPacket rfl .now
  | recon bin =>
    have h := FieldsGive.recon (alen := 0) (addr := 0) (arg := bin.setWidth 64)
    rw [argBin_setWidth] at h
    exact decodeRequest_requestPacket rfl h
  | hash alen addr epoch =>
    have h := FieldsGive.hash (alen := alen) (addr := addr) (arg := epoch.setWidth 64)
    rw [argLow_setWidth] at h
    exact decodeRequest_requestPacket (alenField_toNat (of_decide_eq_true hwf)) h
  | pack digest epoch =>
    have h := FieldsGive.pack (alen := 0) (addr := 0) (arg := packArg digest epoch)
    rw [argLow_packArg, argHigh_packArg] at h
    exact decodeRequest_requestPacket rfl h
  | unpk cookie => exact decodeRequest_requestPacket rfl .unpk
  | gen alen addr =>
    exact decodeRequest_requestPacket (alenField_toNat (of_decide_eq_true hwf)) .gen
  | vrfy alen addr cookie =>
    exact decodeRequest_requestPacket (alenField_toNat (of_decide_eq_true hwf)) .vrfy
  | arx t a b r => simp [encode, decode, decodeUop]

/-! ### Match and mask (R71) -/

/-- Two concatenations of values of the same widths are equal part by part. -/
theorem bitVec_append_inj {v w : Nat} {x x' : BitVec v} {y y' : BitVec w} :
    x ++ y = x' ++ y' ↔ x = x' ∧ y = y' := by
  constructor
  · intro h
    have hlow := congrArg (BitVec.extractLsb' 0 w) h
    rw [BitVec.extractLsb'_append_eq_right, BitVec.extractLsb'_append_eq_right] at hlow
    subst hlow
    exact ⟨(BitVec.append_left_inj y).mp h, rfl⟩
  · rintro ⟨rfl, rfl⟩
    rfl

/-- `W0` under the mask of R71: the reserved fields and `op` where they stand, 0 in place of `alen`. -/
theorem maskedWord0_eq_append (r : Packet) :
    r.extractLsb' 0 32 &&& 0xFFFF00FF#32 = reqRsv1 r ++ (0#8 ++ (reqRsv0 r ++ reqOp r)) := by
  have hmask : ∀ m < 32, (0xFFFF00FF#32).getLsbD m = decide (m < 8 ∨ 16 ≤ m) := by decide
  refine BitVec.eq_of_getLsbD_eq fun i hi => ?_
  simp only [reqOp, reqRsv0, reqRsv1, BitVec.getLsbD_and, BitVec.getLsbD_append,
    BitVec.getLsbD_extractLsb', hmask i hi, hi, decide_true, Bool.true_and, Nat.zero_add]
  by_cases h16 : i < 16
  · by_cases h8 : i < 8
    · by_cases h4 : i < 4
      · simp [h4, h8, h16]
      · simp [h4, h8, h16, show i - 4 < 4 by omega, show 4 + (i - 4) = i by omega]
    · simp [h8, h16]
  · simp [h16, show 16 ≤ i by omega, show i - 16 < 16 by omega]

/-- `W0 & 0xFFFF00FF = n` says that both reserved fields are 0 and `op` is `n`. -/
theorem maskedWord0_eq_iff (r : Packet) (n : BitVec 4) :
    r.extractLsb' 0 32 &&& 0xFFFF00FF#32 = n.setWidth 32 ↔
      reqRsv0 r = 0#4 ∧ reqRsv1 r = 0#16 ∧ reqOp r = n := by
  have hn : n.setWidth 32 = 0#16 ++ (0#8 ++ (0#4 ++ n)) := by
    decide +revert
  rw [maskedWord0_eq_append, hn, bitVec_append_inj, bitVec_append_inj, bitVec_append_inj]
  tauto

/-- The opcode of the command that the fields stand for. -/
theorem opcodeOf_of_fieldsGive {alen : Nat} {addr : AddrField} {arg : DWord} {op : BitVec 4} {i : Instr}
    (h : FieldsGive alen addr arg op i) : Machine.opcodeOf i = some op := by
  cases h <;> rfl

/-- A packet is a command exactly where the first check of R163 passes. -/
theorem exists_decodeRequest_eq_ok_iff (r : Packet) :
    (∃ i, decodeRequest r = .ok i) ↔ ¬ Machine.IllegalPacket r := by
  simp only [decodeRequest_eq_ok_iff, exists_and_left, exists_fieldsGive_iff, not_or, not_not,
    Nat.not_le]

/-- A packet is command `n` exactly where both reserved fields are 0 and `op` is `n`. -/
theorem exists_decodeRequest_opcode_iff (r : Packet) {n : BitVec 4} (hn : n.toNat < 8) :
    (∃ i, decodeRequest r = .ok i ∧ Machine.opcodeOf i = some n) ↔
      reqRsv0 r = 0#4 ∧ reqRsv1 r = 0#16 ∧ reqOp r = n := by
  constructor
  · rintro ⟨i, hi, hop⟩
    obtain ⟨h0, h1, h⟩ := (decodeRequest_eq_ok_iff r i).mp hi
    rw [opcodeOf_of_fieldsGive h] at hop
    exact ⟨h0, h1, Option.some.inj hop⟩
  · rintro ⟨h0, h1, rfl⟩
    obtain ⟨i, h⟩ := (exists_fieldsGive_iff _ _ _ _).mpr hn
    exact ⟨i, (decodeRequest_eq_ok_iff r i).mpr ⟨h0, h1, h⟩, opcodeOf_of_fieldsGive h⟩

/-- Settles O2: both sides of each equivalence are conditions on `op` and the reserved fields. -/
theorem commandsAreMatchAndMask : Obligations.CommandsAreMatchAndMask := by
  intro r
  refine ⟨exists_decodeRequest_eq_ok_iff r, fun n hn => ?_⟩
  rw [exists_decodeRequest_opcode_iff r hn, maskedWord0_eq_iff]

/-! ### The worked words (R71, R72) -/

/-- Settles O3: five closed words. -/
theorem workedWordsDecode : Obligations.WorkedWordsDecode := by
  exact ⟨by decide, by decide, by decide, by decide, by decide⟩

end Sys2Proof

namespace Sys2Proof.Machine

/-! ### Reserved encodings (R68, R69) -/

/-- A packet that fails the first check of R163 answers IllegalCommand and data 0. -/
theorem executePacket_of_illegal {r : Packet} (h : IllegalPacket r) (s : State) :
    executePacket r s = .next (withAnswer ⟨.illegalCommand, 0⟩ s) := by
  cases hdecode : decodeRequest r with
  | ok i => exact absurd h ((exists_decodeRequest_eq_ok_iff r).mp ⟨i, hdecode⟩)
  | error e => exact executePacket_of_error hdecode s

/-- Settles O5: the first check of R163 fails, whichever of its three conditions does. -/
theorem reservedEncodingsAnswerIllegalCommand : Obligations.ReservedEncodingsAnswerIllegalCommand :=
  fun _ s h => executePacket_of_illegal h s

/-! ### Fields that a command ignores (R70, R62) -/

/-- Absorbing sees the address bytes below the length only. -/
theorem absorbAddress_congr (c : Config) {addr addr' : AddrField} {n : Nat} (x : Words)
    (h : ∀ j < n, addrByte addr j = addrByte addr' j) :
    absorbAddress c addr n x = absorbAddress c addr' n x := by
  unfold absorbAddress
  cases c.absorb with
  | overwrite => exact overlayBytes_congr c.byteOrder x h

/-- The digest sees the address bytes below the length only. -/
theorem mixerHash_congr (c : Config) (k : Words) {addr addr' : AddrField} {n : Nat} (epoch : Word)
    (h : ∀ j < n, addrByte addr j = addrByte addr' j) :
    mixerHash c k addr n epoch = mixerHash c k addr' n epoch := by
  rw [mixerHash, mixerHash, mixInit, mixInit, absorbAddress_congr c k h]

/-- The cookie of an address sees its bytes below the length only. -/
theorem cookieFor_congr (c : Config) (k : Words) {addr addr' : AddrField} {n : Nat} (epoch : Word)
    (h : ∀ j < n, addrByte addr j = addrByte addr' j) :
    cookieFor c k addr n epoch = cookieFor c k addr' n epoch := by
  rw [cookieFor, cookieFor, mixerHash_congr c k epoch h]

/-- The verdict sees the address bytes below the length only. -/
theorem verdict_congr (c : Config) (k : Words) {addr addr' : AddrField} {n : Nat} (cookie : DWord)
    (t : Word) (h : ∀ j < n, addrByte addr j = addrByte addr' j) :
    verdict c k addr n cookie t = verdict c k addr' n cookie t := by
  rw [verdict, verdict, cookieFor_congr c k _ h]

/-- A result that is only asked for where the length check passes may differ where it fails. -/
theorem keyedCommand_congr {n : Nat} {f g : Words → State → DWord}
    (h : n ≤ ADDR_MAX → ∀ k s, f k s = g k s) (s : State) :
    keyedCommand n f s = keyedCommand n g s := by
  by_cases hn : n ≤ ADDR_MAX
  · obtain rfl : f = g := funext₂ (h hn)
    rfl
  · rw [keyedCommand_too_long (by omega), keyedCommand_too_long (by omega)]

section ignoredAddressBytes
variable {addr addr' : AddrField} {n : Nat}
  (h : ∀ j < n, j < 16 → addrByte addr j = addrByte addr' j)
include h

/-- HASH ignores the address bytes from the length on. -/
theorem exec_hash_congr (epoch : Word) (s : State) :
    exec (.hash n addr epoch) s = exec (.hash n addr' epoch) s :=
  keyedCommand_congr (fun hn k u => congrArg (BitVec.setWidth 64)
    (mixerHash_congr u.config k epoch fun j hj => h j hj (hj.trans_le hn))) s

/-- GEN ignores the address bytes from the length on. -/
theorem exec_gen_congr (s : State) : exec (.gen n addr) s = exec (.gen n addr') s :=
  keyedCommand_congr (fun hn k u =>
    cookieFor_congr u.config k (epochNow u.t) fun j hj => h j hj (hj.trans_le hn)) s

/-- VRFY ignores the address bytes from the length on. -/
theorem exec_vrfy_congr (cookie : DWord) (s : State) :
    exec (.vrfy n addr cookie) s = exec (.vrfy n addr' cookie) s :=
  keyedCommand_congr (fun hn k u => congrArg (fun b => (BitVec.ofBool b).setWidth 64)
    (verdict_congr u.config k cookie u.t fun j hj => h j hj (hj.trans_le hn))) s

end ignoredAddressBytes

/-- Settles O4: packets that agree on the fields in use fail the first check together, or decode to the same
command with operands that it does not tell apart. -/
theorem ignoredFieldsHaveNoEffect : Obligations.IgnoredFieldsHaveNoEffect := by
  rintro r r' s ⟨hop, h0, h1, hbin, hlow, harg, haddr⟩
  by_cases hillegal : IllegalPacket r
  · have hillegal' : IllegalPacket r' := by rwa [IllegalPacket, ← h0, ← h1, ← hop]
    rw [executePacket_of_illegal hillegal, executePacket_of_illegal hillegal']
  · have hillegal' : ¬ IllegalPacket r' := by rwa [IllegalPacket, ← h0, ← h1, ← hop]
    obtain ⟨i, hi⟩ := (exists_decodeRequest_eq_ok_iff r).mpr hillegal
    obtain ⟨i', hi'⟩ := (exists_decodeRequest_eq_ok_iff r').mpr hillegal'
    rw [executePacket_of_ok hi, executePacket_of_ok hi']
    obtain ⟨-, -, hgives⟩ := (decodeRequest_eq_ok_iff r i).mp hi
    obtain ⟨-, -, hgives'⟩ := (decodeRequest_eq_ok_iff r' i').mp hi'
    rw [← hop] at hgives'
    generalize reqOp r = op at *
    cases hgives with
    | kinit => cases hgives'; rfl
    | now => cases hgives'; rfl
    | recon => cases hgives'; rw [hbin rfl]
    | pack => cases hgives'; rw [harg (.inl rfl)]
    | unpk => cases hgives'; rw [harg (.inr (.inl rfl))]
    | hash =>
      cases hgives'
      obtain ⟨hlen, hbytes⟩ := haddr (.inl rfl)
      rw [← hlen, ← hlow rfl]
      exact exec_hash_congr hbytes _ s
    | gen =>
      cases hgives'
      obtain ⟨hlen, hbytes⟩ := haddr (.inr (.inl rfl))
      rw [← hlen]
      exact exec_gen_congr hbytes s
    | vrfy =>
      cases hgives'
      obtain ⟨hlen, hbytes⟩ := haddr (.inr (.inr rfl))
      rw [← hlen, ← harg (.inr (.inr rfl))]
      exact exec_vrfy_congr hbytes _ s

/-! ### The response packet (R64, R65) -/

/-- Code 3 is the code of no status. -/
theorem statusCode_ne_three (st : Status) : statusCode st ≠ 3#2 := by
  cases st <;> decide

/-- Bits 1:0 of a response packet. -/
@[simp] theorem responseWord_status (a : Response) :
    (responseWord a).extractLsb' 0 2 = statusCode a.status := by
  rw [responseWord, BitVec.extractLsb'_append_eq_of_add_le (by decide)]
  exact BitVec.extractLsb'_eq_self

/-- Bits 31:2 of a response packet. -/
@[simp] theorem responseWord_reserved (a : Response) : (responseWord a).extractLsb' 2 30 = 0#30 := by
  rw [responseWord, BitVec.extractLsb'_append_eq_of_le (by decide),
    BitVec.extractLsb'_append_eq_of_add_le (by decide)]
  exact BitVec.extractLsb'_eq_self

/-- Bits 95:32 of a response packet. -/
@[simp] theorem responseWord_data (a : Response) : (responseWord a).extractLsb' 32 64 = a.data := by
  rw [responseWord, BitVec.extractLsb'_append_eq_of_le (by decide),
    BitVec.extractLsb'_append_eq_of_le (by decide)]
  exact BitVec.extractLsb'_eq_self

/-- Settles O57, field by field. -/
theorem responsePacketHasTheLayout : Obligations.ResponsePacketHasTheLayout := by
  intro a
  simp only [responseWord_status]
  refine ⟨fun h => ?_, fun h => ?_, fun h => ?_, statusCode_ne_three a.status,
    responseWord_reserved a, responseWord_data a⟩ <;> rw [h] <;> rfl

/-! ### The pins a step reads: a micro-operation word, a request, the entropy offer -/

/-- A micro-operation word for a port that exists is executed, with that port current (R72). -/
theorem runMicroOp_of_lt {p : Nat} {s : State} (h : p < s.ports.length) (w : UopWord) :
    runMicroOp p w s = exec (decodeUop w) { s with cur := p } := by
  simp [runMicroOp, List.getElem?_eq_getElem h]

/-- Settles O45: the move is the micro-operation's, and the port exists. -/
theorem stepRunsTheDecodedMicroOp : Obligations.StepRunsTheDecodedMicroOp := by
  intro s p rest w hagenda hp
  rw [step_cons hagenda]
  exact runMicroOp_of_lt (s := beginMove rest s) hp w

/-- A free port takes the request presented on it, and presents no response (R75). -/
theorem presentRequest_of_free {p : Nat} {r : Packet} {s : State} {q : Port}
    (hq : s.ports[p]? = some q) (hfree : q.req = none) :
    presentRequest p r s =
      .next (modifyPort p (fun q => { q with req := some r, rsp := none }) s) := by
  simp [presentRequest, hq, hfree]

/-- A busy port does not take the request presented on it (R75). -/
theorem presentRequest_of_busy {p : Nat} {r : Packet} {s : State} {q : Port}
    (hq : s.ports[p]? = some q) (hbusy : q.req.isSome = true) : presentRequest p r s = .next s := by
  obtain ⟨r', hr'⟩ := Option.isSome_iff_exists.mp hbusy
  simp [presentRequest, hq, hr']

/-- Settles O46: the port is free or busy, and beginning the move changes neither. -/
theorem requestIsTakenOnlyByAFreePort : Obligations.RequestIsTakenOnlyByAFreePort := by
  intro s p r rest q hagenda hq
  rw [step_cons hagenda]
  exact ⟨presentRequest_of_free (s := beginMove rest s) hq,
    presentRequest_of_busy (s := beginMove rest s) hq⟩

/-- A move other than the environment's leaves what the entropy port offers (R29, R74). -/
theorem runMove_ent {m : Move} {s t : State} (h : runMove m s = .next t)
    (hm : ∀ offer, m ≠ .entropy offer) : t.ent = s.ent := by
  rcases runMove_cases h with ⟨-, rfl⟩ | ⟨-, rfl⟩ | ⟨-, -, hquiet⟩
  · exact tickCounter_ent s
  · exact applyReset_ent s
  · exact hquiet.ent.resolve_right (hm t.ent)

/-- Settles O47: with an empty agenda the tick agent moves, else the first move of the agenda. -/
theorem entropyOfferIsTheEnvironments : Obligations.EntropyOfferIsTheEnvironments := by
  intro s t
  refine ⟨fun offer rest hagenda => step_cons hagenda, fun h hhead => ?_⟩
  cases hagenda : s.agenda with
  | nil =>
    rw [step_nil hagenda] at h
    cases h
    rfl
  | cons m rest =>
    rw [step_cons hagenda] at h
    exact runMove_ent (s := beginMove rest s) h fun offer hm => hhead offer (by rw [hagenda, hm]; rfl)

end Sys2Proof.Machine

/-! PROOFS. The key source (spec/40_keysource.md): KINIT, the stall and what lifts it, and that the key stays
over a run. -/

namespace Sys2Proof.Machine

/-! ### The state a key-using command leaves -/

/-- With the key there, a completed key-using command leaves nothing but its answer. -/
theorem afterKeyed_of_key {s : State} {k : Words} (hkey : s.key = some k) (d : DWord) :
    afterKeyed k d s = withAnswer { status := .ok, data := d } s := by
  simp [afterKeyed, withAnswer, hkey]

/-- With no key there, a completed key-using command leaves the key it filled, the pulse and its answer. -/
theorem afterKeyed_of_fill {s : State} (hkey : s.key = none) (k : Words) (d : DWord) :
    afterKeyed k d s =
      withAnswer { status := .ok, data := d } { s with key := some k, entTake := true } := by
  simp [afterKeyed, hkey]

/-- A completed key-using command presents its result on the current port, if that exists. -/
theorem presented_afterKeyed {s : State} {p : Nat} {q : Port} (hcur : s.cur = p)
    (hq : s.ports[p]? = some q) (k : Words) (d : DWord) :
    presented (afterKeyed k d s) p = some { status := .ok, data := d } := by
  simp [presented, hcur, hq]

/-- The bytes the entropy port offers make a usable key where none is there (R80). -/
theorem usesKey_of_offer {s : State} {e : EntBytes} (hkey : s.key = none) (hent : s.ent = some e) :
    UsesKey s (keyWords s.config.byteOrder e) :=
  .inr ⟨hkey, by simp [hent], by simp [hent]⟩

/-- KINIT means `execKinit`. -/
theorem exec_kinit (s : State) : exec .kinit s = execKinit s := rfl

/-- Settles O10: KINIT completes with the key that is there or with the one offered, and else it stalls. -/
theorem kinitFillsTheKeyAndAnswersZero : Obligations.KinitFillsTheKeyAndAnswersZero := by
  intro s
  refine ⟨fun k hkey => ?_, fun e hkey hent => ?_, execKinit_stalls⟩
  · rw [exec_kinit, execKinit_completes (.inl hkey), afterKeyed_of_key hkey]
  · rw [exec_kinit, execKinit_completes (usesKey_of_offer hkey hent), afterKeyed_of_fill hkey]

/-! ### The stall and what lifts it -/

/-- There is at most one key that a key-using command can work with. -/
theorem usesKey_unique {s : State} {k k' : Words} (h : UsesKey s k) (h' : UsesKey s k') : k = k' := by
  have heq := (keyFill_of_usesKey h).symm.trans (keyFill_of_usesKey h')
  exact congrArg Prod.fst (Option.some.inj heq)

/-- What calls the key fill is a command, not the micro-operation (R82). -/
theorem isCommand_of_usesKeyFill {i : Instr} (h : usesKeyFill i = true) : isCommand i = true := by
  cases i with
  | arx => cases h
  | _ => rfl

section keyUsing
variable {i : Instr} (huses : usesKeyFill i = true) (hlength : lengthOk i = true)
include huses hlength

/-- A key-using command whose checks pass stalls, or answers OK with a key that can be used (R80, R83). -/
theorem exec_keyUsing_cases (s : State) :
    (s.key = none ∧ s.ent = none ∧ exec i s = .next s) ∨
    (∃ k d, UsesKey s k ∧ exec i s = .next (afterKeyed k d s)) := by
  rcases exec_cases i s with ⟨hlong, -⟩ | ⟨-, -, hstall⟩ | ⟨-, -, hdone⟩ | ⟨hkeyless, -⟩ | ⟨hmicro, -⟩
  · simp [hlength] at hlong
  · exact .inl hstall
  · exact .inr hdone
  · simp [huses] at hkeyless
  · simp [isCommand_of_usesKeyFill huses] at hmicro

/-- Such a command stalls without a key and without entropy (R83). -/
theorem exec_stalls {s : State} (hkey : s.key = none) (hent : s.ent = none) : exec i s = .next s := by
  rcases exec_keyUsing_cases huses hlength s with ⟨-, -, hstall⟩ | ⟨k, -, hk, -⟩
  · exact hstall
  · simp [UsesKey, hkey, hent] at hk

/-- Such a command answers OK where a key can be used (R80). -/
theorem exec_completes {s : State} {k : Words} (hk : UsesKey s k) :
    ∃ d, exec i s = .next (afterKeyed k d s) := by
  rcases exec_keyUsing_cases huses hlength s with ⟨hkey, hent, -⟩ | ⟨k', d, hk', hdone⟩
  · simp [UsesKey, hkey, hent] at hk
  · exact ⟨d, usesKey_unique hk hk' ▸ hdone⟩

/-- The turn of a port whose request is such a command answers it where a key can be used, and leaves that
key there. -/
theorem step_serve_completes {s : State} {p : Nat} {rest : List Move} {q : Port} {r : Packet}
    {k : Words} (hagenda : s.agenda = .serve p :: rest) (hq : s.ports[p]? = some q)
    (hr : q.req = some r) (hdecode : decodeRequest r = .ok i) (hk : UsesKey s k) :
    ∃ t d, step s = .next t ∧ t.key = some k ∧
      presented t p = some { status := .ok, data := d } := by
  obtain ⟨d, hdone⟩ := exec_completes huses hlength
    (s := { s with agenda := rest, entTake := false, cur := p }) hk
  rw [step_serve hagenda hq hr, executePacket_of_ok hdecode, hdone]
  exact ⟨_, d, rfl, rfl, presented_afterKeyed rfl hq k d⟩

end keyUsing

/-- Settles O12: the turn executes the decoded command, which stalls. -/
theorem stalledCommandStaysPending : Obligations.StalledCommandStaysPending := by
  intro s p rest q r i hagenda hq hr hdecode huses hlength hkey hent
  rw [step_serve hagenda hq hr, executePacket_of_ok hdecode]
  exact exec_stalls huses hlength hkey hent

/-- One step is `step`. -/
theorem runSteps_one (s t : State) : runSteps 1 s = .next t ↔ step s = .next t := by
  simp [runSteps_succ, runSteps_zero]

/-- After a reset no port has a request in flight or presents a response (R180). -/
theorem applyReset_ports_idle {s : State} {q : Port} (hq : q ∈ (applyReset s).ports) :
    q.req = none ∧ q.rsp = none := by
  rw [eq_idle_of_mem_resetWith_ports (c := s.config) hq]
  exact ⟨rfl, rfl⟩

/-- Settles O13: the offer, then the turn of the port, which fills the key; the turn alone, where the key is
there; and the reset. -/
theorem stallIsLifted : Obligations.StallIsLifted := by
  intro s p q r i hq hr hdecode huses hlength hkey
  refine ⟨fun e => ?_, fun k => ?_, ?_⟩
  · obtain ⟨t, d, hserve, hanswer⟩ := step_serve_completes huses hlength
      (s := { s with agenda := [.serve p], entTake := false, ent := some e }) rfl hq hr hdecode
      (usesKey_of_offer hkey rfl)
    have hoffer : step { s with agenda := [.entropy (some e), .serve p] } =
        .next { s with agenda := [.serve p], entTake := false, ent := some e } :=
      step_cons (m := .entropy (some e)) rfl
    exact ⟨t, d, (runSteps_succ ..).mpr ⟨_, hoffer, (runSteps_one ..).mpr hserve⟩, hanswer⟩
  · obtain ⟨t, d, hserve, hanswer⟩ := step_serve_completes huses hlength
      (s := { s with key := some k, agenda := [.serve p] }) rfl hq hr hdecode (.inl rfl)
    exact ⟨t, d, (runSteps_one ..).mpr hserve, hanswer⟩
  · exact ⟨_, (runSteps_one ..).mpr (step_cons (m := .reset) rfl), fun _ => applyReset_ports_idle⟩

/-! ### The key over a run -/

/-- Whoever moves next, the rest of the agenda is its tail. -/
theorem nextMove_snd (s : State) : (nextMove s).2 = s.agenda.tail := by
  cases hagenda : s.agenda <;> simp [nextMove, hagenda]

/-- A step uses up the first move of the agenda and adds none. -/
theorem step_agenda {s t : State} (h : step s = .next t) : t.agenda = s.agenda.tail := by
  rw [← nextMove_snd]
  rcases runMove_cases h with ⟨-, rfl⟩ | ⟨-, rfl⟩ | ⟨-, -, hquiet⟩
  · rfl
  · rfl
  · exact hquiet.agenda

/-- An agenda without a reset does not begin with one. -/
theorem head?_ne_reset_of_noReset {ms : List Move} (h : NoReset ms) : ms.head? ≠ some .reset :=
  fun hhead => by simpa [isReset] using h .reset (List.mem_of_mem_head? hhead)

/-- Settles O16, by induction on the number of steps: each keeps the key (R22) and leaves an agenda without a
reset. -/
theorem keySurvivesEveryRun : Obligations.KeySurvivesEveryRun := by
  intro n
  induction n with
  | zero =>
    intro s t k _ hrun hkey
    obtain rfl := (runSteps_zero s t).mp hrun
    exact hkey
  | succ n ih =>
    intro s t k hnoreset hrun hkey
    obtain ⟨u, hstep, hrest⟩ := (runSteps_succ n s t).mp hrun
    have hu : u.key = some k := keyIsWriteOnce s u k hstep hkey (head?_ne_reset_of_noReset hnoreset)
    have hlater : NoReset u.agenda := fun m hm =>
      hnoreset m (List.mem_of_mem_tail (step_agenda hstep ▸ hm))
    exact ih u t k hlater hrest hu

end Sys2Proof.Machine

/-! PROOFS. The epoch clock (spec/41_epochclock.md): NOW and RECON, the window of a reconstructed epoch, and
which epochs are recovered from their bins, over the wrap of the counter too. -/

namespace Sys2Proof.Machine

/-! ### The counter over one step -/

/-- Settles O17: the tick's step is known in full, with or without an agenda, and a move other than the tick's
and the reset's is quiet. -/
theorem onlyTheTickMovesTheCounter : Obligations.OnlyTheTickMovesTheCounter := by
  refine ⟨fun s rest hagenda => step_cons hagenda, fun s t h hreset htick hne => ?_, fun s hempty => ?_⟩
  · obtain ⟨m, rest, hagenda⟩ := List.exists_cons_of_ne_nil hne
    rw [step_cons hagenda] at h
    rcases runMove_cases h with ⟨rfl, -⟩ | ⟨rfl, -⟩ | ⟨-, -, hquiet⟩
    · simp [hagenda] at htick
    · simp [hagenda] at hreset
    · exact hquiet.counter
  · rw [step_nil hempty, ← hempty]
    rfl

/-! ### What NOW and RECON answer -/

/-- NOW answers `now()` (R93). -/
theorem exec_now (s : State) :
    exec .now s = .next (withAnswer ⟨.ok, (epochNow s.t).setWidth 64⟩ s) := rfl

/-- RECON answers `reconstruct(bin)` (R95). -/
theorem exec_recon (bin : BitVec 4) (s : State) :
    exec (.recon bin) s = .next (withAnswer ⟨.ok, (reconstruct bin s.t).setWidth 64⟩ s) := rfl

/-- Settles O19: NOW answers `now()`, in integers. -/
theorem nowAnswersTheEpoch : Obligations.NowAnswersTheEpoch := by
  intro s
  rw [exec_now, ← BitVec.ofNat_toNat, epochNow_toNat]

/-- Settles O20: RECON answers `reconstruct(bin)`, in integers; the first epoch of the current cycle of 16 is
the epoch less its bin. -/
theorem reconAnswersTheReconstructedEpoch : Obligations.ReconAnswersTheReconstructedEpoch := by
  intro bin s
  have hcycle : s.t.toNat / 250 / 16 * 16 = s.t.toNat / 250 - s.t.toNat / 250 % 16 := by omega
  have hle : s.t.toNat / 250 % 16 ≤ s.t.toNat / 250 := Nat.mod_le _ _
  rw [exec_recon, ← BitVec.ofNat_toNat, reconstruct_toNat, hcycle, Nat.add_sub_assoc hle]

/-! ### The window of a reconstructed epoch (R96, R97, R99) -/

/-- `now()` is at most the epoch of the counter's greatest value (R92). -/
theorem epochNow_le (t : Word) : (epochNow t).toNat ≤ 17179869 := by
  have ht := t.isLt
  rw [epochNow_toNat]
  omega

/-- In the first cycle of 16 the subtraction for a bin above the current epoch wraps below zero (R99). -/
theorem reconstruct_toNat_of_startup {bin : BitVec 4} {t : Word} (hfirst : (epochNow t).toNat < 16)
    (habove : (epochNow t).toNat < bin.toNat) :
    (reconstruct bin t).toNat = 0xFFFFFFF0 + bin.toNat := by
  have hbin := bin.isLt
  rw [epochNow_toNat] at hfirst habove
  rw [reconstruct_toNat, if_pos (by omega)]
  omega

/-- Outside the corner of R99 the reconstructed epoch is one of the 16 that end with the current one (R97). -/
theorem reconstruct_mem_window {bin : BitVec 4} {t : Word}
    (h : ¬ ((epochNow t).toNat < 16 ∧ (epochNow t).toNat < bin.toNat)) :
    (epochNow t).toNat ≤ (reconstruct bin t).toNat + 15 ∧
      (reconstruct bin t).toNat ≤ (epochNow t).toNat := by
  have ht := t.isLt
  have hbin := bin.isLt
  rw [epochNow_toNat] at h ⊢
  rw [reconstruct_toNat]
  split <;> omega

/-- The reconstructed epoch modulo 16 is the bin (R96). -/
theorem reconstruct_toNat_mod (bin : BitVec 4) (t : Word) :
    (reconstruct bin t).toNat % 16 = bin.toNat := by
  rw [← binOf_toNat, binOf_reconstruct]

/-- Of the 16 epochs that end with the current one, the reconstructed epoch is the only one with the bin
(R97). -/
theorem eq_reconstruct_of_mem_window {bin : BitVec 4} {t : Word} {v : Nat}
    (hrecent : (epochNow t).toNat ≤ v + 15) (hpast : v ≤ (epochNow t).toNat)
    (hbin : v % 16 = bin.toNat) : v = (reconstruct bin t).toNat := by
  have hmod := reconstruct_toNat_mod bin t
  have hwindow := reconstruct_mem_window (bin := bin) (t := t) (by omega)
  omega

/-- Settles O21: the bound of `now()`, the bin of the reconstructed epoch, its window, and that the window has
one such epoch. -/
theorem reconstructedEpochLiesInTheWindow : Obligations.ReconstructedEpochLiesInTheWindow := by
  intro bin t
  refine ⟨epochNow_le t, binOf_reconstruct bin t, fun hcorner => ?_⟩
  obtain ⟨hrecent, hpast⟩ := reconstruct_mem_window hcorner
  exact ⟨hrecent, hpast, fun v => eq_reconstruct_of_mem_window⟩

/-- Settles O23: what the wrapped subtraction gives is greater than any `now()`. -/
theorem startupCornerGivesNoIssuedEpoch : Obligations.StartupCornerGivesNoIssuedEpoch := by
  intro bin t hfirst habove
  have hvalue := reconstruct_toNat_of_startup hfirst habove
  refine ⟨hvalue, fun t' heq => ?_⟩
  have hle := epochNow_le t'
  rw [heq, hvalue] at hle
  omega

/-! ### Which epochs are recovered (R98, R100) -/

/-- An epoch that some `now()` can return is recovered from its bin exactly where it is one of the 16 that end
with the current one (R98). -/
theorem reconstruct_binOf_eq_iff {e t : Word} (he : e.toNat ≤ 17179869) :
    reconstruct (binOf e) t = e ↔
      e.toNat ≤ (epochNow t).toNat ∧ (epochNow t).toNat ≤ e.toNat + 15 := by
  constructor
  · intro hrecovered
    have hcorner : ¬ ((epochNow t).toNat < 16 ∧ (epochNow t).toNat < (binOf e).toNat) := by
      rintro ⟨hfirst, habove⟩
      have hvalue := reconstruct_toNat_of_startup hfirst habove
      rw [hrecovered] at hvalue
      omega
    obtain ⟨hrecent, hpast⟩ := reconstruct_mem_window hcorner
    rw [hrecovered] at hrecent hpast
    exact ⟨hpast, hrecent⟩
  · rintro ⟨hpast, hrecent⟩
    exact (BitVec.eq_of_toNat_eq
      (eq_reconstruct_of_mem_window hrecent hpast (binOf_toNat e).symm)).symm

/-- The epoch of one counter value is recovered at another exactly where the other's epoch is 0 to 15 ahead of
it, whatever happened in between (R98, R100). -/
theorem reconstruct_binOf_epochNow_eq_iff (t0 t1 : Word) :
    reconstruct (binOf (epochNow t0)) t1 = epochNow t0 ↔
      t0.toNat / 250 ≤ t1.toNat / 250 ∧ t1.toNat / 250 ≤ t0.toNat / 250 + 15 := by
  rw [reconstruct_binOf_eq_iff (epochNow_le t0), epochNow_toNat, epochNow_toNat]

/-- With no wrap the epoch is recovered exactly where the ticks since its own first millisecond fill less than
16 bins (R98). -/
theorem recovered_iff_of_no_wrap {t0 t1 : Word} {d : Nat} (hd : t1.toNat = t0.toNat + d) :
    reconstruct (binOf (epochNow t0)) t1 = epochNow t0 ↔ t0.toNat % 250 + d < 4000 := by
  rw [reconstruct_binOf_epochNow_eq_iff, hd]
  omega

/-- Settles O22: the epochs recovered are those of the window, and with no wrap they are those whose age with
the place in the bin is below 4000 ms. -/
theorem epochIsRecoveredExactlyWhenRecent : Obligations.EpochIsRecoveredExactlyWhenRecent := by
  refine ⟨fun t e0 => reconstruct_binOf_eq_iff, fun t0 t1 d hd => ?_⟩
  simp only [ne_eq, recovered_iff_of_no_wrap hd]
  refine ⟨?_, fun _ => by omega, fun _ _ => by omega, fun _ => by omega⟩
  rw [epochNow_toNat, epochNow_toNat, hd, Nat.add_div (by decide)]

/-- The last epoch begins at `T = 4294967250`, 46 ms before the wrap (R100). -/
theorem epochNow_eq_last_iff (t : Word) : epochNow t = 17179869#32 ↔ 4294967250 ≤ t.toNat := by
  have ht := t.isLt
  rw [← BitVec.toNat_inj, epochNow_toNat, BitVec.toNat_ofNat]
  omega

/-- Settles O24: the last epoch and the wrap to epoch 0; and since what is recovered depends on the two counter
values alone, so it does after any number of wraps. -/
theorem wrapOfTheCounterDropsTheEpoch : Obligations.WrapOfTheCounterDropsTheEpoch := by
  refine ⟨epochNow_eq_last_iff, fun t hlast => ?_, fun t0 d => ?_, fun t0 t1 hbelow hrecovered => ?_⟩
  · obtain rfl : t = 4294967295#32 := BitVec.eq_of_toNat_eq hlast
    exact ⟨by decide, by decide⟩
  · rw [reconstruct_binOf_epochNow_eq_iff, BitVec.toNat_add, BitVec.toNat_ofNat, Nat.add_mod_mod]
  · obtain ⟨hpast, -⟩ := (reconstruct_binOf_eq_iff (epochNow_le t0)).mp hrecovered
    omega

end Sys2Proof.Machine

/-! PROOFS. The mixer (spec/42_mixer.md): the ARX operation and the permutation made of it, the state it starts
from, and the digest that HASH answers. -/

namespace Sys2Proof.Machine

/-- Two word vectors are equal if they agree word by word. -/
theorem words_ext {x y : Words} (h : ∀ i : Fin 16, x[i] = y[i]) : x = y :=
  Vector.ext fun i hi => h ⟨i, hi⟩

/-! ### ARX on its own (R114) -/

/-- `s` with `f` applied to the scratch words of the current port. -/
def onScratch (f : Words → Words) (s : State) : State :=
  modifyPort s.cur (fun q => { q with x := f q.x }) s

/-- ARX applies its word operation to the current port's scratch words. -/
theorem exec_arx (t a b : Fin 16) (r : Fin 32) (s : State) :
    exec (.arx t a b r) s = .next (onScratch (arxWord ⟨t, a, b, r⟩) s) := rfl

theorem onScratch_id (s : State) : onScratch id s = s :=
  congrArg (fun ports => { s with ports := ports }) (List.modify_id s.cur s.ports)

theorem onScratch_onScratch (f g : Words → Words) (s : State) :
    onScratch g (onScratch f s) = onScratch (g ∘ f) s := by
  simp [onScratch, modifyPort, List.modify_modify_eq, Function.comp_def]

/-- What the current port, if it exists, holds afterwards. -/
theorem onScratch_port {s : State} {q : Port} (hq : s.ports[s.cur]? = some q) (f : Words → Words) :
    (onScratch f s).ports[s.cur]? = some { q with x := f q.x } := by
  simp [onScratch, hq]

/-- Settles O25: ARX is `arxWord` on the port's words, with the spec's rotation read as the library's. -/
theorem arxXorsTheRotatedSum : Obligations.ArxXorsTheRotatedSum := by
  intro s t a b r
  simp only [exec_arx, onScratch, modifyPort, arxWord, rotl32_eq_rotateLeft]

/-- An ARX operation that does not read its target undoes itself: what it xors in is the same again. -/
theorem arxWord_involutive {u : MicroOp} (ha : u.t ≠ u.a) (hb : u.t ≠ u.b) :
    Function.Involutive (arxWord u) := by
  intro x
  refine words_ext fun i => ?_
  by_cases hi : i = u.t
  · rw [hi, arxWord_target, arxWord_target, arxWord_other u x ha.symm, arxWord_other u x hb.symm,
      BitVec.xor_assoc, BitVec.xor_self, BitVec.xor_zero]
  · rw [arxWord_other u _ hi, arxWord_other u _ hi]

/-- The operation `u` neither writes nor reads the target of `v`. -/
def Avoids (u v : MicroOp) : Prop := v.t ≠ u.t ∧ v.t ≠ u.a ∧ v.t ≠ u.b

/-- The target of `u` is written alike before and after an operation whose target `u` avoids. -/
theorem arxWord_target_after {u v : MicroOp} (h : Avoids u v) (x : Words) :
    (arxWord u (arxWord v x))[u.t] = (arxWord u x)[u.t] := by
  obtain ⟨ht, ha, hb⟩ := h
  rw [arxWord_target, arxWord_target, arxWord_other v x ht.symm, arxWord_other v x ha.symm,
    arxWord_other v x hb.symm]

/-- Two operations that avoid each other's target do not interfere. -/
theorem arxWord_comm {u v : MicroOp} (huv : Avoids u v) (hvu : Avoids v u) (x : Words) :
    arxWord u (arxWord v x) = arxWord v (arxWord u x) := by
  have ⟨ht, _, _⟩ := hvu
  refine words_ext fun i => ?_
  by_cases hu : i = u.t
  · rw [hu, arxWord_target_after huv, arxWord_other v _ ht]
  · rw [arxWord_other u _ hu]
    by_cases hv : i = v.t
    · rw [hv, arxWord_target_after hvu]
    · rw [arxWord_other v _ hv, arxWord_other v _ hv, arxWord_other u _ hu]

/-- ARX leaves the all-zero state alone, whatever its operands are. -/
theorem arxWord_zeroWords (u : MicroOp) : arxWord u zeroWords = zeroWords := by
  refine words_ext fun i => ?_
  by_cases hi : i = u.t
  · rw [hi, arxWord_target]
    simp [zeroWords]
  · exact arxWord_other u _ hi

/-! ### A list of ARX operations (R115) -/

/-- ARX operations one after another, in place. -/
def runOps (us : List MicroOp) (x : Words) : Words := us.foldl (fun y u => arxWord u y) x

theorem doubleRound_eq_runOps (sch : Schedule) : doubleRound sch = runOps sch.toList := rfl

theorem runOps_nil : runOps [] = id := rfl

theorem runOps_cons (u : MicroOp) (us : List MicroOp) : runOps (u :: us) = runOps us ∘ arxWord u := rfl

/-- The permutation is the double-round three times. -/
theorem permute_eq (sch : Schedule) :
    permute sch = (doubleRound sch ∘ doubleRound sch) ∘ doubleRound sch := rfl

theorem runOps_bijective {us : List MicroOp} (h : ∀ u ∈ us, u.t ≠ u.a ∧ u.t ≠ u.b) :
    Function.Bijective (runOps us) := by
  induction us with
  | nil => exact Function.bijective_id
  | cons u us ih =>
    obtain ⟨⟨ha, hb⟩, hrest⟩ := List.forall_mem_cons.mp h
    exact (ih hrest).comp (arxWord_involutive ha hb).bijective

/-- The permutation under a schedule whose operations do not read their target is one (R123). -/
theorem permute_bijective {sch : Schedule} (h : Invertible sch) : Function.Bijective (permute sch) :=
  Function.Bijective.iterate (runOps_bijective h) NDOUBLE

/-- The default schedule is invertible, being legal. -/
theorem invertible_default : Invertible Config.default.schedule := by
  obtain ⟨-, hinvertible, -⟩ := (Laws.legal_iff _).mp legal_default
  exact hinvertible

/-- Settles O32: an operation is an involution, so a list of them a bijection; the targets of the default
schedule are counted. -/
theorem permutationIsBijective : Obligations.PermutationIsBijective :=
  ⟨fun _ x ha hb => arxWord_involutive ha hb x, fun _ => permute_bijective, invertible_default, by decide⟩

/-- Operations of two mixes that share no word avoid each other's target. -/
theorem avoids_of_mixes {sch : Schedule} {m n : Nat} {u v : MicroOp}
    (hdisjoint : ∀ w ∈ mixWords sch n, w ∉ mixWords sch m) (hu : u ∈ mixOf sch m)
    (hv : v ∈ mixOf sch n) : Avoids u v := by
  have hfree : ¬ ∃ u' ∈ mixOf sch m, u'.t = v.t ∨ u'.a = v.t ∨ u'.b = v.t :=
    (Laws.mem_mixWords sch m v.t).not.mp
      (hdisjoint v.t ((Laws.mem_mixWords sch n v.t).mpr ⟨v, hv, .inl rfl⟩))
  exact ⟨fun h => hfree ⟨u, hu, .inl h.symm⟩, fun h => hfree ⟨u, hu, .inr (.inl h.symm)⟩,
    fun h => hfree ⟨u, hu, .inr (.inr h.symm)⟩⟩

/-- Settles O58: a legal schedule is invertible, and two of its mixes of one round share no word. -/
theorem legalSchedulesPermuteInMixes : Obligations.LegalSchedulesPermuteInMixes := by
  refine ⟨fun c hlegal => ?_, legal_default⟩
  obtain ⟨-, hinvertible, hmixes⟩ := (Laws.legal_iff c).mp hlegal
  refine ⟨permute_bijective hinvertible, fun m n u v hm hn hne hround hu hv x => ?_⟩
  exact arxWord_comm
    (avoids_of_mixes (fun _ => Laws.not_mem_mixWords_of_same_round hmixes hn hm hne.symm hround.symm) hu hv)
    (avoids_of_mixes (fun _ => Laws.not_mem_mixWords_of_same_round hmixes hm hn hne hround) hv hu) x

/-! ### The overlay of the address (R112) -/

/-- The word of an address byte, from its number (R45). -/
theorem eq_addrWord_iff {j : Nat} (hj : j < 16) (w : Fin 16) : w = addrWord j ↔ w.val = 4 + j / 4 := by
  rw [Fin.ext_iff, addrWord_val hj]

section nextByte
variable (o : ByteOrder) (addr : AddrField) (x : Words) {n : Nat} {w : Fin 16} (hn : n < 16)
include hn

/-- The next address byte replaces its lane of its word. -/
theorem overlayBytes_succ_same (hw : w.val = 4 + n / 4) :
    (overlayBytes o addr (n + 1) x)[w] =
      setLane (overlayBytes o addr n x)[w] (laneLo o n) (addrByte addr n) := by
  obtain rfl := (eq_addrWord_iff hn w).mpr hw
  simp [overlayBytes]

/-- The next address byte leaves every other word alone. -/
theorem overlayBytes_succ_other (hw : w.val ≠ 4 + n / 4) :
    (overlayBytes o addr (n + 1) x)[w] = (overlayBytes o addr n x)[w] := by
  have hne : (addrWord n).val ≠ w.val := by rw [addrWord_val hn]; exact hw.symm
  simp only [overlayBytes, Fin.getElem_fin]
  exact Vector.getElem_set_ne _ _ hne

/-- The next address byte leaves every other lane alone. -/
theorem laneOf_overlayBytes_succ_other {j : Nat} (hj : w.val = 4 + j / 4) (hne : j ≠ n) :
    laneOf (overlayBytes o addr (n + 1) x)[w] (laneLo o j) =
      laneOf (overlayBytes o addr n x)[w] (laneLo o j) := by
  by_cases hw : w.val = 4 + n / 4
  · have hlane : j % 4 ≠ n % 4 := by omega
    rw [overlayBytes_succ_same o addr x hn hw,
      laneOf_setLane_other _ _ _ _ (laneLo_apart o hlane) (laneLo_le o j)]
  · rw [overlayBytes_succ_other o addr x hn hw]

end nextByte

/-- Lane `j` of the address region holds address byte `j` if `j` is below the length, and else the key's. -/
theorem laneOf_overlayBytes (o : ByteOrder) (addr : AddrField) (x : Words) {n j : Nat} {w : Fin 16}
    (hn : n ≤ 16) (hw : w.val = 4 + j / 4) :
    laneOf (overlayBytes o addr n x)[w] (laneLo o j) =
      if j < n then addrByte addr j else laneOf x[w] (laneLo o j) := by
  induction n with
  | zero => rfl
  | succ n ih =>
    by_cases hjn : j = n
    · subst hjn
      rw [overlayBytes_succ_same o addr x hn hw, laneOf_setLane_same _ _ _ (laneLo_le o j),
        if_pos (Nat.lt_succ_self j)]
    · have hiff : j < n + 1 ↔ j < n := by omega
      simp only [laneOf_overlayBytes_succ_other o addr x hn hw hjn, ih (Nat.le_of_succ_le hn), hiff]

/-- Settles O26: `laneOf_overlayBytes` under each byte order, with the bit positions of R43 written out. -/
theorem addressBytesReplaceTheirLanes : Obligations.AddressBytesReplaceTheirLanes :=
  fun addr _ x hn =>
    ⟨fun _ _ _ hw => ⟨laneOf_overlayBytes .le addr x hn hw, laneOf_overlayBytes .be addr x hn hw⟩,
      fun o _ => overlayBytes_outside o addr x hn⟩

/-! ### The state the permutation starts from (R111 to R113) -/

/-- Absorbing is the overlay: `ABSORB` has one value. -/
theorem absorbAddress_eq (c : Config) (addr : AddrField) (n : Nat) (x : Words) :
    absorbAddress c addr n x = overlayBytes c.byteOrder addr n x := by
  unfold absorbAddress
  cases c.absorb with
  | overwrite => rfl

theorem addEpoch_target (e : Word) (x : Words) {w : Fin 16} (hw : w = 6 ∨ w = 10) :
    (addEpoch e x)[w] = x[w] + e := by
  rcases hw with rfl | rfl <;> simp [addEpoch, add32]

theorem addEpoch_other (e : Word) (x : Words) {w : Fin 16} (h6 : w ≠ 6) (h10 : w ≠ 10) :
    (addEpoch e x)[w] = x[w] := by
  have h6' : 6 ≠ w.val := fun h => h6 (Fin.ext h.symm)
  have h10' : 10 ≠ w.val := fun h => h10 (Fin.ext h.symm)
  simp [addEpoch, h6', h10']

theorem mixInit_eq (c : Config) (k : Words) (addr : AddrField) (n : Nat) (e : Word) :
    mixInit c k addr n e = addEpoch e (overlayBytes c.byteOrder addr n k) := by
  rw [mixInit, absorbAddress_eq]

/-- Settles O27: the epoch is added to the overlay in words 6 and 10 alone, and the overlay leaves the words
outside 4..7 alone. -/
theorem mixingStartsFromKeyAddressAndEpoch : Obligations.MixingStartsFromKeyAddressAndEpoch := by
  intro c k addr n e w hn
  rw [mixInit_eq]
  refine ⟨addEpoch_target e _, addEpoch_other e _, fun hw => ?_⟩
  rw [addEpoch_other e _ (by rintro rfl; simp at hw) (by rintro rfl; simp at hw),
    overlayBytes_outside _ addr k hn (by omega)]

/-! ### The digest (R110, R118) -/

/-- Instructions after others that end in a next state run from that state. -/
theorem execAll_append {is js : List Instr} {s t : State} (h : execAll is s = .next t) :
    execAll (is ++ js) s = execAll js t := by
  induction is generalizing s with
  | nil => cases h; rfl
  | cons i is ih =>
    simp only [execAll, List.cons_append] at h ⊢
    cases hi : exec i s with
    | next u => rw [hi] at h; exact ih h
    | fault r => rw [hi] at h; cases h
    | refused r => rw [hi] at h; cases h

/-- ARX instructions executed one by one apply their operations in order. -/
theorem execAll_arx (us : List MicroOp) (s : State) :
    execAll (us.map fun u => .arx u.t u.a u.b u.r) s = .next (onScratch (runOps us) s) := by
  induction us generalizing s with
  | nil => rw [runOps_nil, onScratch_id]; rfl
  | cons u us ih =>
    simp only [List.map_cons, execAll, exec_arx]
    rw [ih, onScratch_onScratch, runOps_cons]

/-- The schedule's instructions executed one by one are a double-round. -/
theorem execAll_scheduleInstrs (sch : Schedule) (s : State) :
    execAll (scheduleInstrs sch) s = .next (onScratch (doubleRound sch) s) :=
  execAll_arx sch.toList s

/-- The schedule's instructions executed three times are the permutation. -/
theorem execAll_scheduleInstrs_thrice (sch : Schedule) (s : State) :
    execAll (scheduleInstrs sch ++ scheduleInstrs sch ++ scheduleInstrs sch) s =
      .next (onScratch (permute sch) s) := by
  rw [List.append_assoc, execAll_append (execAll_scheduleInstrs sch s),
    execAll_append (execAll_scheduleInstrs sch _), execAll_scheduleInstrs, onScratch_onScratch,
    onScratch_onScratch, permute_eq]

theorem scheduleInstrs_length (sch : Schedule) : (scheduleInstrs sch).length = 32 := by
  simp [scheduleInstrs]

/-- Settles O28: the 96 instructions are the permutation of the port's words, and the digest is its fold. -/
theorem digestIsNinetySixArxInstructions : Obligations.DigestIsNinetySixArxInstructions := by
  intro s q k addr n e hq hx
  refine ⟨by simp [scheduleInstrs_length], _, _, execAll_scheduleInstrs_thrice _ s, onScratch_port hq _, ?_⟩
  rw [hx]
  rfl

/-- HASH is the key-using command whose result is the digest (R119). -/
theorem exec_hash (n : Nat) (addr : AddrField) (e : Word) (s : State) :
    exec (.hash n addr e) s =
      keyedCommand n (fun k u => (mixerHash u.config k addr n e).setWidth 64) s := rfl

/-- Settles O29: HASH completes, and the key fill leaves the parameters that the digest reads. -/
theorem hashAnswersTheDigest : Obligations.HashAnswersTheDigest := by
  intro s k n addr e hn hk
  rw [exec_hash, keyedCommand_completes hn hk]

/-- Settles O30: the overlay sees the bytes below the length only, and a longer length is refused. -/
theorem digestIgnoresBytesBeyondTheLength : Obligations.DigestIgnoresBytesBeyondTheLength := by
  intro addr addr' n h
  exact ⟨fun c k e hn => mixerHash_congr c k e fun j hj => h j hj (by omega),
    fun s e cookie => ⟨exec_hash_congr h e s, exec_gen_congr h s, exec_vrfy_congr h cookie s⟩⟩

/-! ### What the digest does not tell apart (R121, R119) -/

/-- Absorbing an address byte equal to the key byte in its lane changes nothing. -/
theorem overlayBytes_succ_of_keyByte {o : ByteOrder} {addr : AddrField} {n : Nat} {k : Words}
    {w : Fin 16} (hn : n < 16) (hw : w.val = 4 + n / 4)
    (h : addrByte addr n = laneOf k[w] (laneLo o n)) :
    overlayBytes o addr (n + 1) k = overlayBytes o addr n k := by
  have hlane : laneOf (overlayBytes o addr n k)[w] (laneLo o n) = addrByte addr n := by
    rw [laneOf_overlayBytes o addr k hn.le hw, if_neg (lt_irrefl n), h]
  refine words_ext fun i => ?_
  by_cases hi : i.val = 4 + n / 4
  · obtain rfl : w = i := Fin.ext (hw.trans hi.symm)
    rw [overlayBytes_succ_same o addr k hn hi, ← hlane, setLane_laneOf _ _ (laneLo_le o n)]
  · exact overlayBytes_succ_other o addr k hn hi

/-- Absorbing an address equal to the key bytes it replaces changes nothing. -/
theorem overlayBytes_of_keyBytes {o : ByteOrder} {addr : AddrField} {n : Nat} {k : Words} (hn : n ≤ 16)
    (h : ∀ (j : Nat) (w : Fin 16), j < n → w.val = 4 + j / 4 →
      addrByte addr j = laneOf k[w] (laneLo o j)) :
    overlayBytes o addr n k = k := by
  induction n with
  | zero => rfl
  | succ n ih =>
    have hw := addrWord_val hn
    rw [overlayBytes_succ_of_keyByte hn hw (h n _ (Nat.lt_succ_self n) hw),
      ih (Nat.le_of_succ_le hn) fun j w hj => h j w (Nat.lt_succ_of_lt hj)]

/-- Addresses that overlay the key alike have the same digest. -/
theorem mixerHash_of_overlay {c : Config} {k : Words} {addr addr' : AddrField} {n n' : Nat}
    (h : overlayBytes c.byteOrder addr n k = overlayBytes c.byteOrder addr' n' k) (e : Word) :
    mixerHash c k addr n e = mixerHash c k addr' n' e := by
  rw [mixerHash, mixerHash, mixInit_eq, mixInit_eq, h]

/-- Settles O31: in both collisions the overlays of the key are equal. -/
theorem addressLengthIsNotAbsorbed : Obligations.AddressLengthIsNotAbsorbed := by
  intro c k addr n e
  refine ⟨fun w hn hw hbyte => ?_, fun hn hbytes => ?_⟩
  · exact mixerHash_of_overlay (overlayBytes_succ_of_keyByte hn hw hbyte) e
  · have hempty : overlayBytes c.byteOrder addr n k = overlayBytes c.byteOrder 0 0 k :=
      overlayBytes_of_keyBytes hn hbytes
    exact mixerHash_of_overlay hempty e

/-- Epoch 0 adds nothing. -/
theorem addEpoch_zero (x : Words) : addEpoch 0#32 x = x := by
  refine words_ext fun w => ?_
  by_cases hw : w = 6 ∨ w = 10
  · rw [addEpoch_target _ _ hw, BitVec.add_zero]
  · obtain ⟨h6, h10⟩ := not_or.mp hw
    exact addEpoch_other _ _ h6 h10

theorem runOps_zeroWords (us : List MicroOp) : runOps us zeroWords = zeroWords := by
  induction us with
  | nil => rfl
  | cons u us ih => rw [runOps_cons, Function.comp_apply, arxWord_zeroWords, ih]

theorem permute_zeroWords (sch : Schedule) : permute sch zeroWords = zeroWords :=
  Function.iterate_fixed (runOps_zeroWords sch.toList) NDOUBLE

/-- Settles O33: the permutation starts from the all-zero state and leaves it as it is. -/
theorem allZeroStateHasDigestZero : Obligations.AllZeroStateHasDigestZero := by
  intro c addr
  have hstart : mixInit c zeroWords addr 0 0#32 = zeroWords := by
    rw [mixInit_eq, addEpoch_zero]
    rfl
  calc mixerHash c zeroWords addr 0 0#32 = foldWords (permute c.schedule zeroWords) := by
        rw [mixerHash, hstart]
    _ = foldWords zeroWords := by rw [permute_zeroWords]
    _ = 0#32 := by decide

end Sys2Proof.Machine

/-! PROOFS. The cookie codec (spec/43_cookiecodec.md): the layout of a cookie, what GEN and VRFY answer, and how
long a cookie is accepted. -/

namespace Sys2Proof.Machine

/-! ### PACK and UNPK (R141 to R144) -/

/-- A value is the cookie of a digest and an epoch exactly where its three fields are as R140 lays them out. -/
theorem packCookie_eq_iff (d e : Word) (c : DWord) :
    packCookie d e = c ↔
      c.extractLsb' 0 4 = binOf e ∧ c.extractLsb' 4 32 = d ∧ c.extractLsb' 36 28 = 0#28 := by
  have hd := d.isLt
  have hc := c.isLt
  simp only [← BitVec.toNat_inj, packCookie_toNat, binOf_toNat, BitVec.extractLsb'_toNat,
    Nat.shiftRight_eq_div_pow, BitVec.toNat_ofNat]
  omega

/-- PACK answers `pack` (R142). -/
theorem exec_pack (d e : Word) (s : State) :
    exec (.pack d e) s = .next (withAnswer ⟨.ok, packCookie d e⟩ s) := rfl

/-- UNPK answers `unpack_bin` (R144). -/
theorem exec_unpk (cookie : DWord) (s : State) :
    exec (.unpk cookie) s = .next (withAnswer ⟨.ok, (unpackBin cookie).setWidth 64⟩ s) := rfl

theorem unpackBin_toNat (cookie : DWord) : (unpackBin cookie).toNat = cookie.toNat % 16 := by
  simp [unpackBin]

/-- Settles O34: PACK answers `pack`, in integers. -/
theorem packAnswersTheCookie : Obligations.PackAnswersTheCookie := by
  intro d e s
  rw [exec_pack, ← packCookie_toNat, BitVec.ofNat_toNat, BitVec.setWidth_eq]

/-- Settles O35: UNPK answers `unpack_bin`, in integers, and `unpack_bin` undoes `pack` for the bin. -/
theorem unpkAnswersTheBin : Obligations.UnpkAnswersTheBin := by
  refine ⟨fun cookie s => ?_, unpackBin_packCookie⟩
  rw [exec_unpk, ← unpackBin_toNat, BitVec.ofNat_toNat]

/-! ### GEN (R145, R150, R151) -/

/-- GEN is the key-using command whose result is the cookie of the current epoch (R145). -/
theorem exec_gen (n : Nat) (addr : AddrField) (s : State) :
    exec (.gen n addr) s =
      keyedCommand n (fun k u => cookieFor u.config k addr n (epochNow u.t)) s := rfl

/-- GEN where it completes: the key fill leaves the parameters and the counter that the cookie is made of. -/
theorem exec_gen_completes {s : State} {k : Words} {n : Nat} (hn : n ≤ 16) (hk : UsesKey s k)
    (addr : AddrField) :
    exec (.gen n addr) s =
      .next (afterKeyed k (cookieFor s.config k addr n (epochNow s.t)) s) := by
  rw [exec_gen, keyedCommand_completes hn hk]

/-- Settles O36: GEN completes with the cookie of the current epoch. -/
theorem genAnswersTheCookieOfNow : Obligations.GenAnswersTheCookieOfNow :=
  fun _ _ _ addr hn hk => exec_gen_completes hn hk addr

/-- Settles O37: the port that exists presents the cookie, whose fields are those of `pack`. -/
theorem genCookieHasTheLayout : Obligations.GenCookieHasTheLayout := by
  intro s k n addr hn hk hcur
  obtain ⟨hbin, hdigest, hzero⟩ :=
    (packCookie_eq_iff (mixerHash s.config k addr n (epochNow s.t)) (epochNow s.t) _).mp rfl
  exact ⟨_, _, exec_gen_completes hn hk addr,
    presented_afterKeyed rfl (List.getElem?_eq_getElem hcur) k _, hbin, hdigest, hzero⟩

/-- Settles O38: the cookie is a function of parameters, key, epoch and the address bytes below the length. -/
theorem genIsDeterministicWithinABin : Obligations.GenIsDeterministicWithinABin := by
  intro s s' k n addr addr' hn hbytes hk hk' hconfig hepoch
  refine ⟨_, exec_gen_completes hn hk addr, ?_⟩
  rw [exec_gen_completes hn hk', ← hconfig, ← hepoch, cookieFor_congr _ _ _ hbytes]

/-! ### VRFY (R146, R147, R152) -/

/-- The verdict is the comparison of all 64 bits (R146). -/
theorem verdict_iff (c : Config) (k : Words) (addr : AddrField) (n : Nat) (cookie : DWord) (t : Word) :
    verdict c k addr n cookie t = true ↔
      cookieFor c k addr n (reconstruct (unpackBin cookie) t) = cookie := beq_iff_eq

/-- A bit zero-extended to 64 bits is 1 or 0. -/
theorem setWidth_ofBool (b : Bool) :
    (BitVec.ofBool b).setWidth 64 = if b = true then 1#64 else 0#64 := by
  cases b <;> rfl

/-- An answer of one bit is 1 exactly where what it tells holds (R147). -/
theorem answerBit_eq_one_iff (P : Prop) [Decidable P] : (if P then 1#64 else 0#64) = 1 ↔ P := by
  by_cases h : P <;> simp [h]

/-- VRFY is the key-using command whose result is the verdict (R146). -/
theorem exec_vrfy (n : Nat) (addr : AddrField) (cookie : DWord) (s : State) :
    exec (.vrfy n addr cookie) s =
      keyedCommand n
        (fun k u => (BitVec.ofBool (verdict u.config k addr n cookie u.t)).setWidth 64) s := rfl

/-- VRFY where it completes: the key fill leaves the parameters and the counter that the verdict reads. -/
theorem exec_vrfy_completes {s : State} {k : Words} {n : Nat} (hn : n ≤ 16) (hk : UsesKey s k)
    (addr : AddrField) (cookie : DWord) :
    exec (.vrfy n addr cookie) s =
      .next (afterKeyed k
        (if verdict s.config k addr n cookie s.t = true then 1#64 else 0#64) s) := by
  rw [exec_vrfy, keyedCommand_completes hn hk, setWidth_ofBool]

/-- Settles O39: VRFY completes with the verdict, and the verdict is the comparison. -/
theorem vrfyAnswersTheVerdict : Obligations.VrfyAnswersTheVerdict := by
  intro s k n addr cookie hn hk
  rw [exec_vrfy_completes hn hk]
  simp only [verdict_iff]
  rfl

/-- Settles O40: the recomputed cookie has the bin of the one given, so the other two fields decide. -/
theorem verdictIsADigestMatch : Obligations.VerdictIsADigestMatch := by
  intro c k addr n cookie t
  have hbin : cookie.extractLsb' 0 4 = binOf (reconstruct (unpackBin cookie) t) :=
    (binOf_reconstruct (unpackBin cookie) t).symm
  rw [verdict_iff, cookieFor, packCookie_eq_iff]
  exact ⟨fun ⟨_, hdigest, hzero⟩ => ⟨hzero, hdigest⟩,
    fun ⟨hzero, hdigest⟩ => ⟨hbin, hdigest, hzero⟩⟩

/-- Settles O41: the first VRFY leaves the key, the parameters and the counter that the verdict reads. -/
theorem vrfyKeepsNoRecord : Obligations.VrfyKeepsNoRecord := by
  intro s t k n addr cookie p hn hk h
  rw [exec_vrfy_completes hn hk] at h
  cases h
  exact ⟨_, rfl, exec_vrfy_completes hn (.inl rfl) addr cookie⟩

/-! ### The life of a cookie (R148, R149) -/

/-- A cookie of an epoch is accepted exactly where the digest at the epoch reconstructed from its bin is the
digest it was made with. -/
theorem verdict_cookieFor_iff (c : Config) (k : Words) (addr : AddrField) (n : Nat) (e t : Word) :
    verdict c k addr n (cookieFor c k addr n e) t = true ↔
      mixerHash c k addr n (reconstruct (binOf e) t) = mixerHash c k addr n e := by
  rw [verdict_iff, cookieFor, cookieFor, unpackBin_packCookie, packCookie_inj (binOf_reconstruct _ t)]

/-- What the current port presents after a completed key-using command is the command's result. -/
theorem data_of_presented_afterKeyed {s : State} {k : Words} {d : DWord} {a : Response}
    (h : presented (afterKeyed k d s) s.cur = some a) : a.data = d := by
  cases hq : s.ports[s.cur]? with
  | none => simp [presented, hq] at h
  | some q =>
    rw [presented_afterKeyed rfl hq] at h
    cases h
    rfl

/-- No step writes the parameters (R8). -/
theorem step_config {s t : State} (h : step s = .next t) : t.config = s.config := by
  rcases runMove_cases h with ⟨-, rfl⟩ | ⟨-, rfl⟩ | ⟨-, -, hquiet⟩
  · rfl
  · rfl
  · exact hquiet.config

/-- No run writes the parameters (R8). -/
theorem runSteps_config {n : Nat} {s t : State} (h : runSteps n s = .next t) : t.config = s.config := by
  induction n generalizing s with
  | zero =>
    obtain rfl := (runSteps_zero s t).mp h
    rfl
  | succ n ih =>
    obtain ⟨u, hstep, hrest⟩ := (runSteps_succ n s t).mp h
    exact (ih hrest).trans (step_config hstep)

section lifetime
variable {s s1 s2 : State} {k : Words} {n : Nat} {addr : AddrField} {ms : List Move}
  (hgen : exec (.gen n addr) s = .next s1) (hnoreset : NoReset ms)
  (hrun : runSteps ms.length { s1 with agenda := ms } = .next s2)
include hgen hnoreset hrun

/-- With no reset and no wrap since GEN, the counter has advanced by the ticks of the interleaving. -/
theorem counter_after_gen (hnowrap : s.t.toNat + ticksIn ms < 2 ^ 32) :
    s2.t.toNat = s.t.toNat + ticksIn ms := by
  obtain ⟨-, ht, -⟩ := exec_effect hgen
  calc s2.t.toNat = (s1.t.toNat + ticksIn ms) % 2 ^ 32 :=
        counterCountsTheTicks ms { s1 with agenda := ms } s2 hnoreset rfl hrun
    _ = s.t.toNat + ticksIn ms := by rw [ht, Nat.mod_eq_of_lt hnowrap]

/-- VRFY of a cookie that GEN answered, after any interleaving without a reset: the key and the parameters are
still those of GEN, so the answer is whether the digest at the reconstructed epoch is the digest GEN made. -/
theorem exec_vrfy_after_gen {cookie : DWord} (hn : n ≤ 16) (hk : UsesKey s k)
    (hcookie : presented s1 s.cur = some { status := .ok, data := cookie }) (p : Nat) :
    exec (.vrfy n addr cookie) { s2 with cur := p } =
      .next (withAnswer
        { status := .ok
          data :=
            if mixerHash s.config k addr n (reconstruct (binOf (epochNow s.t)) s2.t) =
                mixerHash s.config k addr n (epochNow s.t)
              then 1#64 else 0#64 }
        { s2 with cur := p }) := by
  rw [exec_gen_completes hn hk] at hgen
  cases hgen
  obtain rfl : cookie = cookieFor s.config k addr n (epochNow s.t) :=
    data_of_presented_afterKeyed hcookie
  have hkey : { s2 with cur := p }.key = some k :=
    keySurvivesEveryRun ms.length _ s2 k hnoreset hrun rfl
  have hconfig : s2.config = s.config := (runSteps_config hrun :)
  rw [exec_vrfy_completes hn (.inl hkey), afterKeyed_of_key hkey]
  simp only [hconfig, verdict_cookieFor_iff]

end lifetime

/-- Settles O42: within 3750 ms the epoch of GEN is the one that VRFY reconstructs, wherever in its bin the
cookie was issued. -/
theorem freshCookieIsAcceptedAfterAnyInterleaving :
    Obligations.FreshCookieIsAcceptedAfterAnyInterleaving := by
  intro s s1 s2 k n addr cookie ms p hn hk hgen hcookie hnoreset hfresh hnowrap hrun
  have hrecovered : reconstruct (binOf (epochNow s.t)) s2.t = epochNow s.t :=
    (recovered_iff_of_no_wrap (counter_after_gen hgen hnoreset hrun hnowrap)).mpr (by omega)
  rw [exec_vrfy_after_gen hgen hnoreset hrun hn hk hcookie, hrecovered, if_pos rfl]
  rfl

/-- Two arguments have one value exactly where they are equal or, being different, collide. -/
theorem apply_eq_iff_eq_or_collision {α β : Type} (f : α → β) (x y : α) :
    f x = f y ↔ x = y ∨ ∃ x', x' ≠ y ∧ x' = x ∧ f x' = f y := by
  constructor
  · intro h
    by_cases hxy : x = y
    · exact .inl hxy
    · exact .inr ⟨x, hxy, rfl, h⟩
  · rintro (rfl | ⟨x', -, rfl, h⟩)
    · rfl
    · exact h

/-- Settles O43: VRFY accepts where it reconstructs the epoch of GEN, which at this age the place in the bin
decides, or where the digest at the epoch it reconstructs collides. -/
theorem expiredCookieNeedsACollision : Obligations.ExpiredCookieNeedsACollision := by
  intro s s1 s2 k n addr cookie ms p hn hk hgen hcookie hnoreset hold hnowrap hrun
  have hrecovered : reconstruct (binOf (epochNow s.t)) s2.t = epochNow s.t ↔
      ticksIn ms ≤ 3999 ∧ s.t.toNat % 250 + (ticksIn ms - 3750) < 250 := by
    rw [recovered_iff_of_no_wrap (counter_after_gen hgen hnoreset hrun hnowrap)]
    omega
  refine ⟨_, exec_vrfy_after_gen hgen hnoreset hrun hn hk hcookie p, ?_, fun hrefused => ?_⟩
  · rw [← hrecovered, ← apply_eq_iff_eq_or_collision (mixerHash s.config k addr n)]
    exact answerBit_eq_one_iff _
  · exact if_neg (mt (answerBit_eq_one_iff _).mpr hrefused)

end Sys2Proof.Machine

/-! PROOFS. The errors of spec/60_exceptions.md: the order of the checks, what an overlong address answers and
what an error leaves alone, that every port gets the same result, and that nothing else can go wrong. -/

namespace Sys2Proof.Machine

/-! ### The length check (R161) -/

/-- An instruction that fails the length check answers InvalidAddressLength, whatever the state is. -/
theorem exec_of_too_long {i : Instr} (h : lengthOk i = false) (s : State) :
    exec i s = .next (withAnswer ⟨.invalidAddressLength, 0⟩ s) := by
  cases i with
  | hash n a e => exact keyedCommand_too_long (by simpa [lengthOk] using h)
  | gen n a => exact keyedCommand_too_long (by simpa [lengthOk] using h)
  | vrfy n a c => exact keyedCommand_too_long (by simpa [lengthOk] using h)
  | _ => cases h

/-- A command without a key fill has no check to fail and completes (R163). -/
theorem exec_of_keyless {i : Instr} (hcommand : isCommand i = true) (hnofill : usesKeyFill i = false)
    (s : State) : ∃ d, exec i s = .next (withAnswer ⟨.ok, d⟩ s) := by
  cases i with
  | now => exact ⟨_, exec_now s⟩
  | recon bin => exact ⟨_, exec_recon bin s⟩
  | pack d e => exact ⟨_, exec_pack d e s⟩
  | unpk c => exact ⟨_, exec_unpk c s⟩
  | arx t a b r => cases hcommand
  | _ => cases hnofill

/-- A port that has answered presents that answer. -/
theorem presented_withAnswer {s : State} {p : Nat} (hcur : s.cur = p) (hp : p < s.ports.length)
    (a : Response) : presented (withAnswer a s) p = some a := by
  subst hcur
  simp [presented, hp]

/-- What the current port presents after an answer can only be that answer. -/
theorem eq_of_presented_withAnswer {s : State} {a b : Response}
    (h : b ∈ presented (withAnswer a s) s.cur) : b = a := by
  by_cases hp : s.cur < s.ports.length
  · rw [presented_withAnswer rfl hp] at h
    exact (Option.some.inj h).symm
  · simp [presented, hp] at h

/-- A change of the scratch words is not presented. -/
theorem presented_modifyScratch (p n : Nat) (f : Words → Words) (s : State) :
    presented (modifyPort p (fun q => { q with x := f q.x }) s) n = presented s n := by
  unfold presented
  rw [modifyPort_ports, List.getElem?_modify]
  by_cases hp : p = n
  · cases s.ports[n]? <;> simp [hp]
  · simp [hp]

/-- Settles O7: an instruction that passes the length check leaves what its port presents, or answers OK. -/
theorem overlongAddressIsRejected : Obligations.OverlongAddressIsRejected := by
  intro i s
  refine ⟨fun hlong => exec_of_too_long hlong s, fun hlength hbefore => ?_⟩
  have hanswered (d : DWord) (u : State) :
      ∀ a ∈ presented (withAnswer ⟨.ok, d⟩ u) u.cur, a.status ≠ .invalidAddressLength := by
    intro a ha
    simp [eq_of_presented_withAnswer ha]
  rcases exec_cases i s with ⟨hlong, -⟩ | ⟨-, -, -, -, hstall⟩ | ⟨-, -, k, d, -, hkeyed⟩ |
      ⟨-, -, d, hok⟩ | ⟨-, u, hscratch⟩
  · simp [hlength] at hlong
  · exact ⟨s, hstall, hbefore⟩
  · exact ⟨_, hkeyed, hanswered d _⟩
  · exact ⟨_, hok, hanswered d s⟩
  · refine ⟨_, hscratch, fun a ha => hbefore a ?_⟩
    rwa [modifyPort_cur, presented_modifyScratch] at ha

/-! ### The checks of a request packet (R163) -/

/-- The command that the fields of a packet stand for fails the length check exactly where it takes an
address and the length is above 16. -/
theorem lengthOk_eq_false_iff_of_fieldsGive {alen : Nat} {addr : AddrField} {arg : DWord}
    {op : BitVec 4} {i : Instr} (h : FieldsGive alen addr arg op i) :
    lengthOk i = false ↔ (op = 3#4 ∨ op = 6#4 ∨ op = 7#4) ∧ 16 < alen := by
  cases h <;> simp [lengthOk]

/-- The command that the fields of a packet stand for calls the key fill exactly where it takes an address
or is KINIT (R82). -/
theorem usesKeyFill_iff_of_fieldsGive {alen : Nat} {addr : AddrField} {arg : DWord} {op : BitVec 4}
    {i : Instr} (h : FieldsGive alen addr arg op i) :
    usesKeyFill i = true ↔ (op = 3#4 ∨ op = 6#4 ∨ op = 7#4) ∨ op = 0#4 := by
  cases h <;> simp [usesKeyFill]

/-- A packet that passes the first check of R163 is executed as a command, whose length check and key fill
are those of the packet. -/
theorem exists_command_of_legal {r : Packet} (h : ¬ IllegalPacket r) :
    ∃ i, (∀ s, executePacket r s = exec i s) ∧ isCommand i = true ∧
      (lengthOk i = false ↔ TakesAddress r ∧ 16 < (reqAlen r).toNat) ∧
      (usesKeyFill i = true ↔ TakesAddress r ∨ reqOp r = 0#4) := by
  obtain ⟨i, hi⟩ := (exists_decodeRequest_eq_ok_iff r).mpr h
  obtain ⟨-, -, hgives⟩ := (decodeRequest_eq_ok_iff r i).mp hi
  exact ⟨i, executePacket_of_ok hi, isCommand_of_decodeRequest hi,
    lengthOk_eq_false_iff_of_fieldsGive hgives, usesKeyFill_iff_of_fieldsGive hgives⟩

/-- A legal packet that asks for an address of more than 16 bytes answers InvalidAddressLength. -/
theorem executePacket_of_too_long {r : Packet} (hlegal : ¬ IllegalPacket r) (haddr : TakesAddress r)
    (hlong : 16 < (reqAlen r).toNat) (s : State) :
    executePacket r s = .next (withAnswer ⟨.invalidAddressLength, 0⟩ s) := by
  obtain ⟨i, hexec, -, hlength, -⟩ := exists_command_of_legal hlegal
  rw [hexec]
  exact exec_of_too_long (hlength.mpr ⟨haddr, hlong⟩) s

/-- Settles O6: the packet is illegal, or it is a command, which is overlong, calls the key fill, or has
nothing more to be checked. -/
theorem checksAreMadeInOrder : Obligations.ChecksAreMadeInOrder := by
  intro r s
  refine ⟨fun h => executePacket_of_illegal h s,
    fun hlegal haddr hlong => executePacket_of_too_long hlegal haddr hlong s, fun hlegal hshort => ?_⟩
  obtain ⟨i, hexec, hcommand, hlength, hfill⟩ := exists_command_of_legal hlegal
  rw [hexec, ← hfill, Bool.not_eq_true]
  have hlengthOk : lengthOk i = true := by simpa using mt hlength.mp hshort
  exact ⟨fun huses => ⟨exec_stalls huses hlengthOk, fun _ => exec_completes huses hlengthOk⟩,
    fun hnofill => exec_of_keyless hcommand hnofill s⟩

/-! ### The frame of an error (R164) -/

/-- A packet that fails one of the first two checks of R163 answers a status other than OK with data 0, and
nothing else happens. -/
theorem executePacket_of_failed_check {r : Packet}
    (h : IllegalPacket r ∨ TakesAddress r ∧ 16 < (reqAlen r).toNat) (s : State) :
    ∃ st, st ≠ .ok ∧ executePacket r s = .next (withAnswer ⟨st, 0⟩ s) := by
  by_cases hillegal : IllegalPacket r
  · exact ⟨.illegalCommand, by decide, executePacket_of_illegal hillegal s⟩
  · obtain ⟨haddr, hlong⟩ := h.resolve_left hillegal
    exact ⟨.invalidAddressLength, by decide, executePacket_of_too_long hillegal haddr hlong s⟩

/-- Settles O8: an error is an answer and nothing else, and an answer changes one port's request and
response. -/
theorem errorsChangeNothingElse : Obligations.ErrorsChangeNothingElse := by
  intro r s t q hfailed hq h
  obtain ⟨st, hst, hanswer⟩ := executePacket_of_failed_check hfailed s
  rw [hanswer] at h
  cases h
  refine ⟨rfl, rfl, rfl, rfl, rfl, rfl, rfl, fun p hp => ?_, st, hst, ?_⟩
  · exact List.getElem?_modify_ne _ _ hp.symm
  · rw [withAnswer_ports, List.getElem?_modify_eq, hq]
    rfl

/-! ### One result for every port (R170) -/

/-- `s` after a key fill that gave the key `k` (R80): if no key was there, the entropy was taken. -/
def filledWith (k : Words) (s : State) : State :=
  { s with key := some k, entTake := s.entTake || s.key.isNone }

/-- A completed key-using command leaves the state after the fill, the same for every port, with its port
answered. -/
theorem afterKeyed_on_port (k : Words) (d : DWord) (s : State) (p : Nat) :
    afterKeyed k d { s with cur := p } = withAnswer ⟨.ok, d⟩ { filledWith k s with cur := p } := rfl

/-- Made on any port, `run` answers that port with one response, and beside the answer it leaves one state,
with the ports that `s` has. -/
def AnswersAlike (run : State → Host.Outcome State Fault Refusal) (s : State) : Prop :=
  ∃ (a : Response) (u : State), u.ports = s.ports ∧
    ∀ p, run { s with cur := p } = .next (withAnswer a { u with cur := p })

/-- KINIT answers alike on every port, where a key can be used. -/
theorem execKinit_answersAlike {s : State} (hkey : ∃ k, UsesKey s k) : AnswersAlike execKinit s := by
  obtain ⟨k, hk⟩ := hkey
  refine ⟨⟨.ok, 0⟩, filledWith k s, rfl, fun p => ?_⟩
  rw [← afterKeyed_on_port]
  exact execKinit_completes hk

/-- A key-using command answers alike on every port, where a key can be used, if its result is no function of
the port. -/
theorem keyedCommand_answersAlike {f : Words → State → DWord}
    (hf : ∀ k u p, f k { u with cur := p } = f k u) (n : Nat) {s : State}
    (hkey : ∃ k, UsesKey s k) : AnswersAlike (keyedCommand n f) s := by
  obtain ⟨k, hk⟩ := hkey
  by_cases hn : n ≤ ADDR_MAX
  · refine ⟨⟨.ok, f k (filledWith k s)⟩, filledWith k s, rfl, fun p => ?_⟩
    have hresult : f k (filledWith k { s with cur := p }) = f k (filledWith k s) :=
      hf k (filledWith k s) p
    rw [← afterKeyed_on_port, ← hresult]
    exact keyedCommand_completes hn hk
  · exact ⟨⟨.invalidAddressLength, 0⟩, s, rfl, fun p => keyedCommand_too_long (by omega)⟩

/-- Every command answers alike on every port, if it does not stall: no result is a function of the port. -/
theorem exec_answersAlike {i : Instr} (hcommand : isCommand i = true) {s : State}
    (hkey : usesKeyFill i = true → ∃ k, UsesKey s k) : AnswersAlike (exec i) s := by
  cases i with
  | kinit => exact execKinit_answersAlike (hkey rfl)
  | now => exact ⟨⟨.ok, (epochNow s.t).setWidth 64⟩, s, rfl, fun _ => exec_now _⟩
  | recon bin => exact ⟨⟨.ok, (reconstruct bin s.t).setWidth 64⟩, s, rfl, fun _ => exec_recon bin _⟩
  | pack d e => exact ⟨⟨.ok, packCookie d e⟩, s, rfl, fun _ => exec_pack d e _⟩
  | unpk c => exact ⟨⟨.ok, (unpackBin c).setWidth 64⟩, s, rfl, fun _ => exec_unpk c _⟩
  | hash n a e => exact keyedCommand_answersAlike (fun _ _ _ => rfl) n (hkey rfl)
  | gen n a => exact keyedCommand_answersAlike (fun _ _ _ => rfl) n (hkey rfl)
  | vrfy n a c => exact keyedCommand_answersAlike (fun _ _ _ => rfl) n (hkey rfl)
  | arx t a b r => cases hcommand

/-- Settles O55: the command answers alike on both ports, and both exist. -/
theorem resultDoesNotDependOnThePort : Obligations.ResultDoesNotDependOnThePort := by
  intro i s p p' hcommand hkey hp hp'
  have huses : usesKeyFill i = true → ∃ k, UsesKey s k := fun hfill =>
    (usesKey_or_stalls s).resolve_right fun ⟨hnokey, hnoent⟩ => by
      simpa [hnokey, hnoent] using hkey hfill
  obtain ⟨a, u, hports, hanswer⟩ := exec_answersAlike hcommand huses
  rw [← hports] at hp hp'
  exact ⟨_, _, a, hanswer p, hanswer p', presented_withAnswer rfl hp a,
    presented_withAnswer rfl hp' a, rfl, rfl⟩

/-! ### When a step gives no next state (R160) -/

/-- Every instruction gives a next state. -/
theorem exec_isNext (i : Instr) (s : State) : ∃ t, exec i s = .next t := by
  rcases exec_cases i s with ⟨-, h⟩ | ⟨-, -, -, -, h⟩ | ⟨-, -, _, _, -, h⟩ | ⟨-, -, _, h⟩ | ⟨-, _, h⟩
  all_goals exact ⟨_, h⟩

/-- Every packet gives a next state. -/
theorem executePacket_isNext (r : Packet) (s : State) : ∃ t, executePacket r s = .next t := by
  rcases executePacket_cases r s with ⟨i, -, h⟩ | ⟨-, -, h⟩
  · rw [h]
    exact exec_isNext i s
  · exact ⟨_, h⟩

/-- The turn of a port that exists gives a next state, with a request in flight there or not. -/
theorem servePort_isNext {p : Nat} {s : State} (hp : p < s.ports.length) :
    ∃ t, servePort p s = .next t := by
  have hq := List.getElem?_eq_getElem hp
  cases hr : s.ports[p].req with
  | none => exact ⟨s, by simp [servePort, hq, hr]⟩
  | some r =>
    rw [servePort_of_req hq hr]
    exact executePacket_isNext r _

/-- A request presented on a port that exists gives a next state, whether it is taken or not. -/
theorem presentRequest_isNext {p : Nat} {s : State} (hp : p < s.ports.length) (r : Packet) :
    ∃ t, presentRequest p r s = .next t := by
  have hq := List.getElem?_eq_getElem hp
  cases hr : s.ports[p].req with
  | none => exact ⟨_, presentRequest_of_free hq hr⟩
  | some r' => exact ⟨_, presentRequest_of_busy hq (by simp [hr])⟩

/-- A move that names no absent port gives a next state. -/
theorem runMove_isNext {m : Move} {s : State} (h : ∀ p, movePort m = some p → p < s.ports.length) :
    ∃ t, runMove m s = .next t := by
  cases m with
  | tick => exact ⟨_, rfl⟩
  | reset => exact ⟨_, rfl⟩
  | entropy offer => exact ⟨_, rfl⟩
  | request p r => exact presentRequest_isNext (h p rfl) r
  | serve p => exact servePort_isNext (h p rfl)
  | microOp p w =>
    obtain ⟨t, ht⟩ := exec_isNext (decodeUop w) { s with cur := p }
    exact ⟨t, (runMicroOp_of_lt (h p rfl) w).trans ht⟩

/-- A move that names an absent port faults (log entry 13). -/
theorem runMove_absentPort {m : Move} {s : State} {p : Nat} (hm : movePort m = some p)
    (hp : s.ports.length ≤ p) : runMove m s = .fault .noSuchPort := by
  have habsent := List.getElem?_eq_none hp
  cases m with
  | request p' r => cases hm; simp [runMove, presentRequest, habsent]
  | serve p' => cases hm; simp [runMove, servePort, habsent]
  | microOp p' w => cases hm; simp [runMove, runMicroOp, habsent]
  | _ => cases hm

/-- Settles O56: with an empty agenda the tick agent moves, which names no port, else the first move of the
agenda; beginning the move leaves the ports. -/
theorem stepStopsOnlyForAnAbsentPort : Obligations.StepStopsOnlyForAnAbsentPort := by
  intro s
  cases hagenda : s.agenda with
  | nil => exact ⟨fun _ => ⟨_, step_nil hagenda⟩, fun _ _ hhead => by cases hhead⟩
  | cons m rest =>
    rw [step_cons hagenda]
    refine ⟨fun hexists => runMove_isNext (s := beginMove rest s) fun p => hexists m p rfl,
      fun m' p hhead hm hp => ?_⟩
    cases hhead
    exact runMove_absentPort (s := beginMove rest s) hm hp

end Sys2Proof.Machine

/-! PROOFS. The reset agent (spec/70_reset_and_hazards.md): what its step leaves of the state. -/

namespace Sys2Proof.Machine

/-- The reset agent's step: the reset values, with the inputs and the parameters of the state it started in
(R180, R32). -/
theorem step_reset {s : State} {rest : List Move} (hagenda : s.agenda = .reset :: rest) :
    step s = .next (applyReset (beginMove rest s)) :=
  step_cons hagenda

/-- Reset leaves `NPORT` ports, one for each pin set the block has (R8, R170). -/
theorem length_applyReset_ports (s : State) : (applyReset s).ports.length = s.config.nport := by
  rw [applyReset_ports, List.length_replicate]

/-- Settles O48, field by field: the key, the counter and the ports are those of reset, and what the block
does not own stays. -/
theorem resetForgetsEverything : Obligations.ResetForgetsEverything := by
  intro s rest hagenda
  refine ⟨_, step_reset hagenda, applyReset_key _, ?_, applyReset_t _, applyReset_config _, applyReset_ent _,
    applyReset_entTake _, applyReset_agenda _, length_applyReset_ports _, fun _ => applyReset_ports_idle⟩
  rw [State.kv, applyReset_key, Option.isSome_none]

end Sys2Proof.Machine
